-- ==== Sys2Proof/Word.lean ====
section
/-! DEFINITION. The value types of the machine: the widths of rule R6 (spec/00_scope.md), by name. -/

namespace Sys2Proof

/-- 8 bits: a general register, a memory byte, a timer, the immediate `kk` (R6). -/
abbrev Byte := BitVec 8

/-- 16 bits: the instruction word, `pc`, `I`, a stack slot, the `OPC` latch (R6). -/
abbrev Word := BitVec 16

/-- 12 bits: the address immediate `nnn` (R6, R52). -/
abbrev Addr := BitVec 12

/-- A 4-bit register index, key index or row count, 0..15: every field value is legal (R6, R11). -/
abbrev Idx := Fin 16

end Sys2Proof
end

