-- ==== Sys2Proof/Config.lean ====
section
/-! DEFINITION. The fixed constants of rule R4 (spec/00_scope.md) and the free values of the model.
The two parameters of R4 that have a default, `FETCH_LIMIT` and `FONT`, are in Machine/Params.lean. -/

namespace Sys2Proof.Config

/-- `MEM_SIZE`: bytes of memory, addresses 0..4095 (R4, R30). -/
def memSize : Nat := 4096

/-- `PROG_BASE`: the load offset and the initial program counter (R4, R31). -/
def progBase : Word := 0x200#16

/-- `FLAG_REG`: the index of the flag register `VF` (R4, R12). -/
def flagReg : Idx := 15

/-- `STACK_DEPTH`: return-address slots (R4, R15). -/
def stackDepth : Nat := 16

/-- `FB_W`: framebuffer columns (R4, R18). -/
def fbWidth : Nat := 64

/-- `FB_H`: framebuffer rows (R4, R18). -/
def fbHeight : Nat := 32

/-- `GLYPH_LEN`: bytes of one font glyph (R4, R33). -/
def glyphLen : Nat := 5

/-- FREE VALUE: the byte the random source gives on draw number `k` where the host has supplied none
(R99, U9; log entry 1). No body: nothing can be proved about its values. -/
opaque rand : Nat → Byte

/-- FREE VALUE: whether a load that fails has copied its image byte to address `a`; the first argument
tells one failed load from another (R162, U7; log entry 2). -/
opaque loadCopies : Nat → Nat → Bool

end Sys2Proof.Config
end

