-- ==== Sys2Proof/Machine/Params.lean ====
section
/-! DEFINITION. The two parameters that rule R4 (spec/00_scope.md) leaves to the implementation and gives a
default, `FETCH_LIMIT` and `FONT`. A machine carries them in its state; no operation changes them. -/

namespace Sys2Proof.Machine

/-- The 80 bytes of `FONT`, glyph `g` at `5 * g` (R4, R33). -/
abbrev Font := Vector Byte 80

/-- The arguments of the model (R4, D1, D3, U15, U16; log entries 3, 4 and 28). -/
structure Params where
  /-- `FETCH_LIMIT`, the bound of the fetch guard (R66); at most `MEM_SIZE`, since a cycle that passes the
  guard fetches inside memory (R67) -/
  fetchLimit : Fin 4097
  /-- `FONT`, what `init()` copies to 0..79 (R33, R160) -/
  font : Font
  deriving DecidableEq, Repr

/-- The rows of the customary font table that R33 lists, glyphs 0 to F, five bytes a glyph (PRESUMED: the
source does not print the bytes; log entry 3). -/
def fontRows : List Byte :=
  [0xF0#8, 0x90#8, 0x90#8, 0x90#8, 0xF0#8] ++ [0x20#8, 0x60#8, 0x20#8, 0x20#8, 0x70#8] ++
  [0xF0#8, 0x10#8, 0xF0#8, 0x80#8, 0xF0#8] ++ [0xF0#8, 0x10#8, 0xF0#8, 0x10#8, 0xF0#8] ++
  [0x90#8, 0x90#8, 0xF0#8, 0x10#8, 0x10#8] ++ [0xF0#8, 0x80#8, 0xF0#8, 0x10#8, 0xF0#8] ++
  [0xF0#8, 0x80#8, 0xF0#8, 0x90#8, 0xF0#8] ++ [0xF0#8, 0x10#8, 0x20#8, 0x40#8, 0x40#8] ++
  [0xF0#8, 0x90#8, 0xF0#8, 0x90#8, 0xF0#8] ++ [0xF0#8, 0x90#8, 0xF0#8, 0x10#8, 0xF0#8] ++
  [0xF0#8, 0x90#8, 0xF0#8, 0x90#8, 0x90#8] ++ [0xE0#8, 0x90#8, 0xE0#8, 0x90#8, 0xE0#8] ++
  [0xF0#8, 0x80#8, 0x80#8, 0x80#8, 0xF0#8] ++ [0xE0#8, 0x90#8, 0x90#8, 0x90#8, 0xE0#8] ++
  [0xF0#8, 0x80#8, 0xF0#8, 0x80#8, 0xF0#8] ++ [0xF0#8, 0x80#8, 0xF0#8, 0x80#8, 0x80#8]

/-- The default of `FETCH_LIMIT`: `MEM_SIZE` (R4, D1; log entry 4). -/
def defaultFetchLimit : Fin 4097 := 4096

/-- The default of `FONT` (R33, D3; log entry 3). -/
def defaultFont : Font := ⟨fontRows.toArray, by decide⟩

/-- The parameters at their defaults (R4). -/
def Params.default : Params := ⟨defaultFetchLimit, defaultFont⟩

/-- What byte `a` of memory holds after `init()`: the font at 0..79, 0 above it (R23, R160). This is what
an address that the memory list does not name reads as. -/
def resetByte (font : Font) (a : Nat) : Byte := font[a]?.getD 0#8

end Sys2Proof.Machine
end

