-- ==== Sys2Proof/Machine/State.lean ====
section
/-! DEFINITION. The state of the CORE (spec/10_state.md), its reset value, and the reasons a step can stop. -/

namespace Sys2Proof.Machine

/-- The 4096 bytes of memory (R17, R30) as a list of the bytes that differ from what `init()` leaves
there: addresses strictly rising, below 4096, no entry equal to the reset contents (log entry 17). -/
abbrev Memory := List Host.Cell

/-- The 2048 one-bit cells of the framebuffer (R18); bit `k` is `fb[k]` (log entry 16). -/
abbrev Framebuffer := BitVec 2048

/-- The ten members of the aggregate (R10), the parameters the machine is built with (R4), and the model's
view of the input `RAND` (R99). -/
structure State where
  /-- MODEL'S OWN: the parameters `FETCH_LIMIT` and `FONT`; nothing writes them (R4; log entry 28) -/
  params : Params
  /-- `memory` (R17, R30) -/
  mem : Memory
  /-- `V[0]`..`V[15]` (R11); `V[15]` is the flag register (R12) -/
  regs : Vector Byte 16
  /-- `I` (R13) -/
  index : Word
  /-- `pc` (R14) -/
  pc : Word
  /-- `stack[0]`..`stack[15]` (R15) -/
  stack : Vector Word 16
  /-- `SP`, the number of return addresses held; legal values 0..16 (R16) -/
  sp : BitVec 5
  /-- `fb` (R18) -/
  fb : Framebuffer
  /-- `DT`, the delay timer (R19) -/
  dt : Byte
  /-- `ST`, the sound timer (R19) -/
  st : Byte
  /-- `keys[0]`..`keys[15]`, 0 released, any other value pressed (R20; log entry 15) -/
  keys : Vector Nat 16
  /-- `OPC`, the current-opcode latch (R21) -/
  opc : Word
  /-- MODEL'S OWN: bytes of the input `RAND` the host has supplied and no `RND` has consumed, the next
  one first (R99; log entry 1) -/
  randInput : List Byte
  /-- MODEL'S OWN: the counter the free values of Config are applied to (log entry 1) -/
  draws : Nat
  deriving DecidableEq, Repr

/-- The state after `init()` of a machine with the parameters `p` (R23, R160). Memory lists nothing: it
holds the reset contents. -/
def State.resetWith (p : Params) : State where
  params := p
  mem := []
  regs := Vector.replicate 16 0#8
  index := 0#16
  pc := Config.progBase
  stack := Vector.replicate 16 0#16
  sp := 0#5
  fb := 0#2048
  dt := 0#8
  st := 0#8
  keys := Vector.replicate 16 0
  opc := 0#16
  randInput := []
  draws := 0

/-- The state after `init()` with the parameters at their defaults. -/
def State.reset : State := State.resetWith Params.default

/-- Why the machine stops. -/
inductive Fault where
  /-- The condition `AddressOutOfBounds`, with the `pc` that failed the guard: raised by the fetch of
  `step` when `pc + 1 >= FETCH_LIMIT`, nothing changed (R66, R141). Safe: the hardware reports it. -/
  | addressOutOfBounds (pc : Word)
  /-- Raised by CALL with no free slot, `SP >= 16` (R92, U1). Safe: the spec gives no result. -/
  | stackOverflow
  /-- Raised by RET with `SP = 0` (R92, U2). Safe: the spec gives no result. -/
  | stackUnderflow
  /-- Raised by RET with `SP > 16`, a value `SP` never holds in a run from reset (R16). Safe. -/
  | stackSlotAbsent
  /-- Raised by DRW, LD B, LD [I] and LD Vx,[I] when a data address is above 4095, before any change
  (R38, U3). Safe: the spec gives no result. -/
  | dataAddressOutOfRange
  /-- Raised by SKP and SKNP when `V[x] >= 16` (R91, U4). Safe: the spec gives no result. -/
  | keyIndexOutOfRange
  deriving DecidableEq, Repr

/-- Why an instruction, or an operation of the host, has no meaning. -/
inductive Refusal where
  /-- The instruction is not modelled; no arm of `exec` answers this. Safe. -/
  | notModelled (mnemonic : String)
  /-- Raised by DRW with `VF` as a coordinate register (R120, U5). Safe: the spec refuses the form. -/
  | drawFlagCoordinate
  /-- Raised by `Session.perform`, never by a step: no state exists before `init()` (R24, U8). Safe. -/
  | beforeInit
  /-- Raised by `Session.perform`, never by a step: `load` other than once, directly after `init()`
  (R161, U14). Safe. -/
  | loadOutsideLifecycle
  /-- Raised by `Session.perform`, never by a step: `advance()` or `load` after a failed load (R162). Safe. -/
  | notRunnable
  deriving DecidableEq, Repr

/-- What a step, and the meaning of an instruction, answers. -/
abbrev Result := Host.Outcome State Fault Refusal

end Sys2Proof.Machine
end

