-- ==== Sys2Proof/Machine/Ops.lean ====
section
/-! DEFINITION. The named operations over memory, registers, stack, framebuffer, keys and timers that
the meanings share, and the completions of an instruction (spec/40_cycle.md). -/

namespace Sys2Proof.Machine

/-! ## Memory (R34, R36)

The parameter `font` says what an address that the list does not name reads as. -/

/-- The byte at address `a`: the listed one, else the reset contents. -/
def Memory.read (font : Font) : Memory → Nat → Byte
  | [], a => resetByte font a
  | (k, b) :: rest, a => if k = a then b else Memory.read font rest a

/-- The list without the entries of address `a`. -/
def Memory.erase (m : Memory) (a : Nat) : Memory := m.filter (fun c => c.1 != a)

/-- A cell put in its place in a list of rising addresses. -/
def Memory.insert : Memory → Nat → Byte → Memory
  | [], a, v => [(a, v)]
  | (k, b) :: rest, a, v => if a < k then (a, v) :: (k, b) :: rest else (k, b) :: Memory.insert rest a v

/-- `memory[a] <- v` (R34), keeping the canonical form: the reset contents are not listed. -/
def Memory.write (font : Font) (m : Memory) (a : Nat) (v : Byte) : Memory :=
  if v = resetByte font a then Memory.erase m a else Memory.insert (Memory.erase m a) a v

/-- Bytes stored one at a time at `a`, `a + 1`, … (R34: ascending address order). -/
def Memory.writeBytes (font : Font) (m : Memory) (a : Nat) : List Byte → Memory
  | [] => m
  | b :: bs => Memory.writeBytes font (Memory.write font m a b) (a + 1) bs

/-- The bytes at `a`, `a + 1`, …, `a + n - 1`, in ascending address order. -/
def Memory.readBytes (font : Font) (m : Memory) (a : Nat) : Nat → List Byte
  | 0 => []
  | n + 1 => Memory.read font m a :: Memory.readBytes font m (a + 1) n

/-- The cell is inside memory and is listed for a reason (log entry 17). -/
def Memory.cellOk (font : Font) (c : Host.Cell) : Bool :=
  decide (c.1 < Config.memSize) && c.2 != resetByte font c.1

/-- The canonical form: every cell ok, addresses strictly rising (log entry 17). -/
def Memory.wf (font : Font) : Memory → Bool
  | [] => true
  | [c] => Memory.cellOk font c
  | c :: d :: rest => Memory.cellOk font c && decide (c.1 < d.1) && Memory.wf font (d :: rest)

/-- The machine with another memory. -/
def State.setMem (s : State) (m : Memory) : State := { s with mem := m }

/-- One byte of the machine's memory, `memory[a]`. -/
def State.byte (s : State) (a : Nat) : Byte := Memory.read s.params.font s.mem a

/-- The machine's bytes at `a`, …, `a + n - 1`. -/
def State.bytes (s : State) (a n : Nat) : List Byte := Memory.readBytes s.params.font s.mem a n

/-- The machine with bytes stored at `a`, `a + 1`, … -/
def State.store (s : State) (a : Nat) (bs : List Byte) : State :=
  s.setMem (Memory.writeBytes s.params.font s.mem a bs)

/-! ## Registers (R7, R11) -/

/-- `V[x]`. -/
def State.reg (s : State) (x : Idx) : Byte := s.regs[x]

/-- `V[x] <- v`. -/
def State.setReg (s : State) (x : Idx) (v : Byte) : State := { s with regs := s.regs.set x v }

/-- `V[15] <- 1` or `0` (R12). -/
def State.setFlag (s : State) (f : Bool) : State :=
  s.setReg Config.flagReg (if f then 1#8 else 0#8)

/-- Registers `k`, `k + 1`, … loaded from a list, one at a time. -/
def loadRegFile (regs : Vector Byte 16) (k : Nat) : List Byte → Vector Byte 16
  | [] => regs
  | b :: bs => loadRegFile (regs.setIfInBounds k b) (k + 1) bs

/-- `V[0]`, `V[1]`, … loaded from a list. -/
def State.setRegs (s : State) (bs : List Byte) : State := { s with regs := loadRegFile s.regs 0 bs }

/-- The first `n` registers, `V[0]` first. -/
def State.firstRegs (s : State) (n : Nat) : List Byte := s.regs.toList.take n

/-- `I <- v`. -/
def State.setIndex (s : State) (v : Word) : State := { s with index := v }

/-- `pc <- target`. -/
def State.setPc (s : State) (target : Word) : State := { s with pc := target }

/-- `DT <- v`. -/
def State.setDt (s : State) (v : Byte) : State := { s with dt := v }

/-- `ST <- v`. -/
def State.setSt (s : State) (v : Byte) : State := { s with st := v }

/-- `OPC <- w` (R21, R67). -/
def State.setOpc (s : State) (w : Word) : State := { s with opc := w }

/-! ## Stack (R15, R16) -/

/-- `stack[k]`, if there is a slot `k`. -/
def State.slot (s : State) (k : Nat) : Option Word := s.stack[k]?

/-- `stack[SP] <- v; SP <- SP + 1`. Used only with `SP < 16`. -/
def State.push (s : State) (v : Word) : State :=
  { s with stack := s.stack.setIfInBounds s.sp.toNat v, sp := s.sp + 1#5 }

/-- `SP <- SP - 1`; the slot keeps its value (R15). Used only with `SP > 0`. -/
def State.dropTop (s : State) : State := { s with sp := s.sp - 1#5 }

/-! ## Framebuffer (R18) -/

/-- `fb[k]`. -/
def State.cell (s : State) (k : Nat) : Bool := s.fb.getLsbD k

/-- The machine with another framebuffer. -/
def State.setFb (s : State) (fb : Framebuffer) : State := { s with fb := fb }

/-! ## Keys (R20, R91) -/

/-- `keys[k]`. -/
def State.key (s : State) (k : Idx) : Nat := s.keys[k]

/-- `Pressed(k)`: the slot holds a nonzero value. -/
def State.pressed (s : State) (k : Idx) : Bool := s.key k != 0

/-- The least pressed key, if one is pressed (R126: ascending scan of slots 0 to 15). -/
def State.firstPressed (s : State) : Option Idx := (List.finRange 16).find? s.pressed

/-- The host's write of a key slot, between cycles (R25, R172). -/
def State.setKey (s : State) (k : Idx) (v : Nat) : State := { s with keys := s.keys.set k v }

/-! ## The input RAND (R99) -/

/-- The byte the next `draw8()` gives: the host's, else a free value (log entry 1). -/
def State.nextRand (s : State) : Byte :=
  match s.randInput with
  | r :: _ => r
  | [] => Config.rand s.draws

/-- The draw consumed. -/
def State.consumeRand (s : State) : State :=
  { s with randInput := s.randInput.tail, draws := s.draws + 1 }

/-! ## Completion (R70 to R72) -/

/-- One timer counted toward zero (R71). -/
def countDown (t : Byte) : Byte := if t = 0#8 then 0#8 else t - 1#8

/-- `Tick()` (R71). -/
def State.tick (s : State) : State := { s with dt := countDown s.dt, st := countDown s.st }

/-- `pc <- pc + 2`. No instruction that a fetch reaches wraps it (R14, U17; log entry 22). -/
def State.advancePc (s : State) : State := { s with pc := s.pc + 2#16 }

/-- Class `STD`: `Tick(); pc <- pc + 2` (R70). -/
def State.complete (s : State) : State := s.tick.advancePc

/-- Class `SKIP`: one advance more when the condition holds, then the standard completion (R72). -/
def State.completeSkip (s : State) (cond : Bool) : State :=
  (if cond then s.advancePc else s).complete

/-! ## Cases without a result (R144) -/

/-- Run `body` when the `len` bytes from `I` lie in 0..4095; otherwise fault before any change
(R38, U3). With `len = 0` there is no address to check (R119). The sum does not wrap. -/
def withData (s : State) (len : Nat) (body : State → Result) : Result :=
  if 1 ≤ len ∧ s.index.toNat + len - 1 ≥ Config.memSize then .fault .dataAddressOutOfRange
  else body s

/-- Run `body` with the key number that the byte `v` names; above 15 there is none (R91, U4). -/
def withKey (v : Byte) (body : Idx → Result) : Result :=
  if h : v.toNat < 16 then body ⟨v.toNat, h⟩ else .fault .keyIndexOutOfRange

/-! ## Conditions (R140, R148)

The hardware has no exception entry: a condition saves nothing and transfers control nowhere. Raising
one is the fault of the step; reporting one is what `advance` (HostPort.lean) hands to its caller. -/

/-- What an unimplemented word does to the state: nothing but the standard completion (R73). -/
def State.completeUnimplemented (s : State) : State := s.complete

end Sys2Proof.Machine
end

