-- ==== Sys2Proof/Machine/Flags.lean ====
section
/-! DEFINITION. The flag computations: what `VF` receives as a side effect (R12, R111 (f)). The collision
flag of DRW is part of the drawing itself (Draw.lean). -/

namespace Sys2Proof.Machine

/-- Carry out of bit 7: the 9-bit sum exceeds 255 (R105). -/
def carryFlag (a b : Byte) : Bool := decide (a.toNat + b.toNat > 255)

/-- The minuend is strictly greater than the subtrahend, unsigned; equal operands give 0 (R106, R108). -/
def greaterFlag (a b : Byte) : Bool := decide (a.toNat > b.toNat)

/-- The bit a right shift by one shifts out (R107). -/
def lowBitFlag (a : Byte) : Bool := a.getLsbD 0

/-- The bit a left shift by one shifts out (R109). -/
def highBitFlag (a : Byte) : Bool := a.getLsbD 7

end Sys2Proof.Machine
end

