-- ==== Sys2Proof/Machine/Operands.lean ====
section
/-! DEFINITION. The operand forms (R54): an 8-bit register, the immediates zero-extended, the digits of a
byte, the glyph address. There is no other operand form. -/

namespace Sys2Proof.Machine

/-- `zext_16(nnn)` (R6, R54). -/
def addrToWord (nnn : Addr) : Word := nnn.setWidth 16

/-- `zext_16(v)` of a byte (R6, R54). -/
def byteToWord (v : Byte) : Word := v.setWidth 16

/-- The three decimal digits of a byte, hundreds first (R131). -/
def bcdDigits (v : Byte) : List Byte :=
  [BitVec.ofNat 8 (v.toNat / 100), BitVec.ofNat 8 (v.toNat / 10 % 10), BitVec.ofNat 8 (v.toNat % 10)]

/-- The address of glyph `g` (R33, R130). -/
def glyphAddress (g : Nat) : Word := BitVec.ofNat 16 (g * Config.glyphLen)

/-- The sprite bit of column `j`, counted from the most significant bit (R115). -/
def spriteBit (row : Byte) (j : Nat) : Bool := row.getLsbD (7 - j)

/-- The framebuffer cell of row `i`, column `j` of a sprite drawn at the coordinates `vx`, `vy`: both
axes wrap, on sums that do not (R116). -/
def spriteCell (vx vy : Byte) (i j : Nat) : Nat :=
  (vy.toNat + i) % Config.fbHeight * Config.fbWidth + (vx.toNat + j) % Config.fbWidth

end Sys2Proof.Machine
end

