-- ==== Sys2Proof/Machine/Alu.lean ====
section
/-! DEFINITION. The ALU group, family 8 (spec/43_alu.md). The statements of an instruction run in the order
written, flag first, result second, each seeing the writes before it (R100; log entry 5). -/

namespace Sys2Proof.Machine

/-- `8xy0` LD Vx, Vy (R101). -/
def execLdReg (x y : Idx) (s : State) : Result := .next (s.setReg x (s.reg y)).complete

/-- `8xy1` OR Vx, Vy: no flag (R102). -/
def execOrReg (x y : Idx) (s : State) : Result := .next (s.setReg x (s.reg x ||| s.reg y)).complete

/-- `8xy2` AND Vx, Vy: no flag (R103). -/
def execAndReg (x y : Idx) (s : State) : Result := .next (s.setReg x (s.reg x &&& s.reg y)).complete

/-- `8xy3` XOR Vx, Vy: no flag (R104). -/
def execXorReg (x y : Idx) (s : State) : Result := .next (s.setReg x (s.reg x ^^^ s.reg y)).complete

/-- `8xy4` ADD Vx, Vy: the sum is formed before any write (R105). -/
def execAddReg (x y : Idx) (s : State) : Result :=
  let sum := s.reg x + s.reg y
  .next ((s.setFlag (carryFlag (s.reg x) (s.reg y))).setReg x sum).complete

/-- `8xy5` SUB Vx, Vy: the operands of the difference are read after the write of `VF` (R106). -/
def execSubReg (x y : Idx) (s : State) : Result :=
  let f := s.setFlag (greaterFlag (s.reg x) (s.reg y))
  .next (f.setReg x (f.reg x - f.reg y)).complete

/-- `8xy6` SHR Vx: the operand is read after the write of `VF`; `y` is not used (R107, R59). -/
def execShr (x _y : Idx) (s : State) : Result :=
  let f := s.setFlag (lowBitFlag (s.reg x))
  .next (f.setReg x (f.reg x >>> 1)).complete

/-- `8xy7` SUBN Vx, Vy: the operands of the difference are read after the write of `VF` (R108). -/
def execSubnReg (x y : Idx) (s : State) : Result :=
  let f := s.setFlag (greaterFlag (s.reg y) (s.reg x))
  .next (f.setReg x (f.reg y - f.reg x)).complete

/-- `8xyE` SHL Vx: the operand is read after the write of `VF`; `y` is not used (R109, R59). -/
def execShl (x _y : Idx) (s : State) : Result :=
  let f := s.setFlag (highBitFlag (s.reg x))
  .next (f.setReg x (f.reg x <<< 1)).complete

end Sys2Proof.Machine
end

