-- ==== Sys2Proof/Machine/ControlFlow.lean ====
section
/-! DEFINITION. The control-flow group (spec/41_control_flow.md). -/

namespace Sys2Proof.Machine

/-- `00E0` CLS: every cell 0 (R80). -/
def execCls (s : State) : Result := .next (s.setFb 0#2048).complete

/-- `00EE` RET: pop into `pc`, then the standard advance (R81); no call outstanding, no result (R92). -/
def execRet (s : State) : Result :=
  if s.sp = 0#5 then .fault .stackUnderflow
  else
    match s.slot (s.sp.toNat - 1) with
    | some v => .next (s.dropTop.setPc v).complete
    | none => .fault .stackSlotAbsent

/-- `1nnn` JP nnn: the target stands (R82). -/
def execJp (nnn : Addr) (s : State) : Result := .next (s.setPc (addrToWord nnn)).tick

/-- `2nnn` CALL nnn: push the address of this instruction, jump (R83); no free slot, no result (R92). -/
def execCall (nnn : Addr) (s : State) : Result :=
  if Config.stackDepth ≤ s.sp.toNat then .fault .stackOverflow
  else .next ((s.push s.pc).setPc (addrToWord nnn)).tick

/-- `3xkk` SE Vx, kk (R84). -/
def execSeImm (x : Idx) (kk : Byte) (s : State) : Result := .next (s.completeSkip (s.reg x == kk))

/-- `4xkk` SNE Vx, kk (R85). -/
def execSneImm (x : Idx) (kk : Byte) (s : State) : Result := .next (s.completeSkip (s.reg x != kk))

/-- `5xy0` SE Vx, Vy (R86). -/
def execSeReg (x y : Idx) (s : State) : Result := .next (s.completeSkip (s.reg x == s.reg y))

/-- `9xy0` SNE Vx, Vy (R87). -/
def execSneReg (x y : Idx) (s : State) : Result := .next (s.completeSkip (s.reg x != s.reg y))

/-- `Bnnn` JP V0, nnn: the sum is not reduced to 12 bits (R88). -/
def execJpV0 (nnn : Addr) (s : State) : Result :=
  .next (s.setPc (addrToWord nnn + byteToWord (s.reg 0))).tick

/-- `Ex9E` SKP Vx (R89). -/
def execSkp (x : Idx) (s : State) : Result :=
  withKey (s.reg x) fun k => .next (s.completeSkip (s.pressed k))

/-- `ExA1` SKNP Vx (R90). -/
def execSknp (x : Idx) (s : State) : Result :=
  withKey (s.reg x) fun k => .next (s.completeSkip (!s.pressed k))

end Sys2Proof.Machine
end

