-- ==== Sys2Proof/Machine/Draw.lean ====
section
/-! DEFINITION. The draw instruction, family D (spec/44_draw.md). -/

namespace Sys2Proof.Machine

/-- A picture being drawn on, and whether a lit pixel has been turned off so far (R117). -/
structure Canvas where
  fb : Framebuffer
  hit : Bool
  deriving DecidableEq, Repr

/-- `fb[k] <- fb[k] ^ 1`, and a hit if the cell is 0 after it (R115, R117). -/
def flipCell (c : Canvas) (k : Nat) : Canvas :=
  let fb := c.fb ^^^ BitVec.twoPow 2048 k
  ⟨fb, c.hit || !fb.getLsbD k⟩

/-- One sprite row: the columns of its set bits from left to right (R115). -/
def drawRow (vx vy : Byte) (i : Nat) (row : Byte) (c : Canvas) : Canvas :=
  (List.range 8).foldl
    (fun c j => if spriteBit row j then flipCell c (spriteCell vx vy i j) else c) c

/-- The sprite rows `i`, `i + 1`, … in order (R115, R118). -/
def drawRows (vx vy : Byte) (i : Nat) : List Byte → Canvas → Canvas
  | [], c => c
  | row :: rows, c => drawRows vx vy (i + 1) rows (drawRow vx vy i row c)

/-- `Dxyn` DRW Vx, Vy, n: XOR the `n` rows at `I` onto the framebuffer at column `V[x]`, row `V[y]`;
`VF` is the collision flag (R115). `VF` as a coordinate has no meaning (R120). -/
def execDrw (x y n : Idx) (s : State) : Result :=
  if x = Config.flagReg ∨ y = Config.flagReg then .refused .drawFlagCoordinate
  else withData s n fun s =>
    let c := drawRows (s.reg x) (s.reg y) 0 (s.bytes s.index.toNat n) ⟨s.fb, false⟩
    .next ((s.setFb c.fb).setFlag c.hit).complete

end Sys2Proof.Machine
end

