-- ==== Sys2Proof/Machine/Immediate.lean ====
section
/-! DEFINITION. The immediate and arithmetic-with-immediate group (spec/42_immediate.md). -/

namespace Sys2Proof.Machine

/-- `6xkk` LD Vx, kk (R95). -/
def execLdImm (x : Idx) (kk : Byte) (s : State) : Result := .next (s.setReg x kk).complete

/-- `7xkk` ADD Vx, kk: modulo 256, no flag (R96). -/
def execAddImm (x : Idx) (kk : Byte) (s : State) : Result := .next (s.setReg x (s.reg x + kk)).complete

/-- `Annn` LD I, nnn (R97). -/
def execLdI (nnn : Addr) (s : State) : Result := .next (s.setIndex (addrToWord nnn)).complete

/-- `Cxkk` RND Vx, kk: one fresh byte of `RAND`, masked (R98, R99). -/
def execRnd (x : Idx) (kk : Byte) (s : State) : Result :=
  .next (s.consumeRand.setReg x (s.nextRand &&& kk)).complete

end Sys2Proof.Machine
end

