-- ==== Sys2Proof/Machine/Misc.lean ====
section
/-! DEFINITION. The miscellaneous group, family F (spec/45_misc.md). -/

namespace Sys2Proof.Machine

/-- `Fx07` LD Vx, DT: the value before this cycle's tick (R125). -/
def execLdVxDt (x : Idx) (s : State) : Result := .next (s.setReg x s.dt).complete

/-- `Fx0A` LD Vx, K: the least pressed key, else no state change at all (R126). -/
def execLdVxK (x : Idx) (s : State) : Result :=
  match s.firstPressed with
  | some k => .next (s.setReg x (BitVec.ofNat 8 k.val)).complete
  | none => .next s

/-- `Fx15` LD DT, Vx: the written value ticks in the same cycle (R127). -/
def execLdDtVx (x : Idx) (s : State) : Result := .next (s.setDt (s.reg x)).complete

/-- `Fx18` LD ST, Vx: the written value ticks in the same cycle (R128). -/
def execLdStVx (x : Idx) (s : State) : Result := .next (s.setSt (s.reg x)).complete

/-- `Fx1E` ADD I, Vx: modulo 65536, no flag (R129). -/
def execAddI (x : Idx) (s : State) : Result :=
  .next (s.setIndex (s.index + byteToWord (s.reg x))).complete

/-- `Fx29` LD F, Vx: out-of-range values leave `I` as it was (R130). -/
def execLdF (x : Idx) (s : State) : Result :=
  .next (if (s.reg x).toNat < 16 then s.setIndex (glyphAddress (s.reg x).toNat) else s).complete

/-- `Fx33` LD B, Vx: the three digits at `I`, `I + 1`, `I + 2` (R131). -/
def execLdB (x : Idx) (s : State) : Result :=
  withData s 3 fun s =>
    .next (s.store s.index.toNat (bcdDigits (s.reg x))).complete

/-- `Fx55` LD [I], Vx: `V[0]`..`V[x]` at `I`..`I + x` (R132). -/
def execStoreRegs (x : Idx) (s : State) : Result :=
  withData s (x.val + 1) fun s =>
    .next (s.store s.index.toNat (s.firstRegs (x.val + 1))).complete

/-- `Fx65` LD Vx, [I]: `V[0]`..`V[x]` from `I`..`I + x` (R133). -/
def execLoadRegs (x : Idx) (s : State) : Result :=
  withData s (x.val + 1) fun s =>
    .next (s.setRegs (s.bytes s.index.toNat (x.val + 1))).complete

end Sys2Proof.Machine
end

