-- ==== Sys2Proof/Syntax.lean ====
section
/-! DEFINITION. The instruction set as syntax: one constructor per row of spec/opcode_table.json
(rule R56, spec/30_encoding.md), in the table's order. -/

namespace Sys2Proof

/-- The 34 defined instructions (R56). `x` and `y` are register numbers, `kk` and `nnn` immediates,
`n` a row count (R52, R54). `shr` and `shl` keep the ignored field `y` (R59), so that no bit of a word
is lost; their meanings do not read it. -/
inductive Instr where
  /-- `00E0` CLS (R80) -/
  | cls
  /-- `00EE` RET (R81) -/
  | ret
  /-- `1nnn` JP nnn (R82) -/
  | jp (nnn : Addr)
  /-- `2nnn` CALL nnn (R83) -/
  | call (nnn : Addr)
  /-- `3xkk` SE Vx, kk (R84) -/
  | seImm (x : Idx) (kk : Byte)
  /-- `4xkk` SNE Vx, kk (R85) -/
  | sneImm (x : Idx) (kk : Byte)
  /-- `5xy0` SE Vx, Vy (R86) -/
  | seReg (x y : Idx)
  /-- `9xy0` SNE Vx, Vy (R87) -/
  | sneReg (x y : Idx)
  /-- `Bnnn` JP V0, nnn (R88) -/
  | jpV0 (nnn : Addr)
  /-- `Ex9E` SKP Vx (R89) -/
  | skp (x : Idx)
  /-- `ExA1` SKNP Vx (R90) -/
  | sknp (x : Idx)
  /-- `6xkk` LD Vx, kk (R95) -/
  | ldImm (x : Idx) (kk : Byte)
  /-- `7xkk` ADD Vx, kk (R96) -/
  | addImm (x : Idx) (kk : Byte)
  /-- `Annn` LD I, nnn (R97) -/
  | ldI (nnn : Addr)
  /-- `Cxkk` RND Vx, kk (R98) -/
  | rnd (x : Idx) (kk : Byte)
  /-- `8xy0` LD Vx, Vy (R101) -/
  | ldReg (x y : Idx)
  /-- `8xy1` OR Vx, Vy (R102) -/
  | orReg (x y : Idx)
  /-- `8xy2` AND Vx, Vy (R103) -/
  | andReg (x y : Idx)
  /-- `8xy3` XOR Vx, Vy (R104) -/
  | xorReg (x y : Idx)
  /-- `8xy4` ADD Vx, Vy (R105) -/
  | addReg (x y : Idx)
  /-- `8xy5` SUB Vx, Vy (R106) -/
  | subReg (x y : Idx)
  /-- `8xy6` SHR Vx (R107); `y` is ignored (R59) -/
  | shr (x y : Idx)
  /-- `8xy7` SUBN Vx, Vy (R108) -/
  | subnReg (x y : Idx)
  /-- `8xyE` SHL Vx (R109); `y` is ignored (R59) -/
  | shl (x y : Idx)
  /-- `Dxyn` DRW Vx, Vy, n (R115) -/
  | drw (x y n : Idx)
  /-- `Fx07` LD Vx, DT (R125) -/
  | ldVxDt (x : Idx)
  /-- `Fx0A` LD Vx, K (R126) -/
  | ldVxK (x : Idx)
  /-- `Fx15` LD DT, Vx (R127) -/
  | ldDtVx (x : Idx)
  /-- `Fx18` LD ST, Vx (R128) -/
  | ldStVx (x : Idx)
  /-- `Fx1E` ADD I, Vx (R129) -/
  | addI (x : Idx)
  /-- `Fx29` LD F, Vx (R130) -/
  | ldF (x : Idx)
  /-- `Fx33` LD B, Vx (R131) -/
  | ldB (x : Idx)
  /-- `Fx55` LD [I], Vx (R132) -/
  | storeRegs (x : Idx)
  /-- `Fx65` LD Vx, [I] (R133) -/
  | loadRegs (x : Idx)
  deriving DecidableEq, Repr

end Sys2Proof
end

