-- ==== Sys2Proof/Decode.lean ====
section
/-! DEFINITION. From words to instructions and back: the fields (R52), the two-level decode procedure
(R55), the encoder, the opcode map as a table of masks (R56), and the bytes of a word (R35, R51). -/

namespace Sys2Proof

/-- Why a byte sequence is no instruction. -/
inductive DecodeReject where
  /-- The word matches no row of the opcode map (R57): the machine reports it and goes on (R73). -/
  | unimplementedOpcode (w : Word)
  /-- Fewer than the two bytes every instruction has (R50). -/
  | truncated
  deriving DecidableEq, Repr

/-! ## Fields (R52) -/

/-- `op = w[15:12]`, the family selector. -/
def fieldOp (w : Word) : BitVec 4 := w.extractLsb' 12 4
/-- `x = w[11:8]`, the first register index. -/
def fieldX (w : Word) : Idx := (w.extractLsb' 8 4).toFin
/-- `y = w[7:4]`, the second register index. -/
def fieldY (w : Word) : Idx := (w.extractLsb' 4 4).toFin
/-- `n = w[3:0]`, sub-selector of families 5, 8 and 9, row count of family D. -/
def fieldN (w : Word) : Idx := (w.extractLsb' 0 4).toFin
/-- `kk = w[7:0]`, 8-bit immediate, sub-selector of families E and F. -/
def fieldKk (w : Word) : Byte := w.extractLsb' 0 8
/-- `nnn = w[11:0]`, 12-bit address immediate. -/
def fieldNnn (w : Word) : Addr := w.extractLsb' 0 12

/-! ## Decoding (R55) -/

/-- Family 0: the whole word is matched (R93). -/
def decodeFamily0 (w : Word) : Except DecodeReject Instr :=
  if w = 0x00E0#16 then .ok .cls
  else if w = 0x00EE#16 then .ok .ret
  else .error (.unimplementedOpcode w)

/-- Family 8: the low nibble selects (R110 for the others). -/
def decodeFamily8 (w : Word) : Except DecodeReject Instr :=
  match (fieldN w).val with
  | 0x0 => .ok (.ldReg (fieldX w) (fieldY w))
  | 0x1 => .ok (.orReg (fieldX w) (fieldY w))
  | 0x2 => .ok (.andReg (fieldX w) (fieldY w))
  | 0x3 => .ok (.xorReg (fieldX w) (fieldY w))
  | 0x4 => .ok (.addReg (fieldX w) (fieldY w))
  | 0x5 => .ok (.subReg (fieldX w) (fieldY w))
  | 0x6 => .ok (.shr (fieldX w) (fieldY w))
  | 0x7 => .ok (.subnReg (fieldX w) (fieldY w))
  | 0xE => .ok (.shl (fieldX w) (fieldY w))
  | _ => .error (.unimplementedOpcode w)

/-- Family E: the low byte selects. -/
def decodeFamilyE (w : Word) : Except DecodeReject Instr :=
  match (fieldKk w).toNat with
  | 0x9E => .ok (.skp (fieldX w))
  | 0xA1 => .ok (.sknp (fieldX w))
  | _ => .error (.unimplementedOpcode w)

/-- Family F: the low byte selects (R134 for the others). -/
def decodeFamilyF (w : Word) : Except DecodeReject Instr :=
  match (fieldKk w).toNat with
  | 0x07 => .ok (.ldVxDt (fieldX w))
  | 0x0A => .ok (.ldVxK (fieldX w))
  | 0x15 => .ok (.ldDtVx (fieldX w))
  | 0x18 => .ok (.ldStVx (fieldX w))
  | 0x1E => .ok (.addI (fieldX w))
  | 0x29 => .ok (.ldF (fieldX w))
  | 0x33 => .ok (.ldB (fieldX w))
  | 0x55 => .ok (.storeRegs (fieldX w))
  | 0x65 => .ok (.loadRegs (fieldX w))
  | _ => .error (.unimplementedOpcode w)

/-- The decode procedure, total on all 65536 words (R55): the family, then its sub-selector. The
`n == 0` tests of families 5 and 9 are rule R58's. -/
def decode (w : Word) : Except DecodeReject Instr :=
  match (fieldOp w).toNat with
  | 0x0 => decodeFamily0 w
  | 0x1 => .ok (.jp (fieldNnn w))
  | 0x2 => .ok (.call (fieldNnn w))
  | 0x3 => .ok (.seImm (fieldX w) (fieldKk w))
  | 0x4 => .ok (.sneImm (fieldX w) (fieldKk w))
  | 0x5 => if fieldN w = 0 then .ok (.seReg (fieldX w) (fieldY w)) else .error (.unimplementedOpcode w)
  | 0x6 => .ok (.ldImm (fieldX w) (fieldKk w))
  | 0x7 => .ok (.addImm (fieldX w) (fieldKk w))
  | 0x8 => decodeFamily8 w
  | 0x9 => if fieldN w = 0 then .ok (.sneReg (fieldX w) (fieldY w)) else .error (.unimplementedOpcode w)
  | 0xA => .ok (.ldI (fieldNnn w))
  | 0xB => .ok (.jpV0 (fieldNnn w))
  | 0xC => .ok (.rnd (fieldX w) (fieldKk w))
  | 0xD => .ok (.drw (fieldX w) (fieldY w) (fieldN w))
  | 0xE => decodeFamilyE w
  | _ => decodeFamilyF w

/-- The instruction word of two bytes, the one at the lower address first (R35, R51). -/
def wordOfBytes (hi lo : Byte) : Word := hi ++ lo

/-- The bytes of a word as memory holds them, lowest address first (R35). -/
def bytesOfWord (w : Word) : List Byte := [w.extractLsb' 8 8, w.extractLsb' 0 8]

/-- The decoder on bytes: two bytes are one instruction (R50); the rest is handed back. -/
def decodeBytes : List Byte → Except DecodeReject (Instr × List Byte)
  | hi :: lo :: rest => (decode (wordOfBytes hi lo)).map (fun i => (i, rest))
  | _ => .error .truncated

/-! ## Encoding (R53, R56) -/

/-- A register index, key index or count as its 4-bit field. -/
def nibble (i : Idx) : BitVec 4 := BitVec.ofFin i

/-- The word of an instruction, digit by digit as the patterns of R56 write it. -/
def encode : Instr → Word
  | .cls => 0x00E0#16
  | .ret => 0x00EE#16
  | .jp nnn => 0x1#4 ++ nnn
  | .call nnn => 0x2#4 ++ nnn
  | .seImm x kk => 0x3#4 ++ nibble x ++ kk
  | .sneImm x kk => 0x4#4 ++ nibble x ++ kk
  | .seReg x y => 0x5#4 ++ nibble x ++ nibble y ++ 0x0#4
  | .sneReg x y => 0x9#4 ++ nibble x ++ nibble y ++ 0x0#4
  | .jpV0 nnn => 0xB#4 ++ nnn
  | .skp x => 0xE#4 ++ nibble x ++ 0x9E#8
  | .sknp x => 0xE#4 ++ nibble x ++ 0xA1#8
  | .ldImm x kk => 0x6#4 ++ nibble x ++ kk
  | .addImm x kk => 0x7#4 ++ nibble x ++ kk
  | .ldI nnn => 0xA#4 ++ nnn
  | .rnd x kk => 0xC#4 ++ nibble x ++ kk
  | .ldReg x y => 0x8#4 ++ nibble x ++ nibble y ++ 0x0#4
  | .orReg x y => 0x8#4 ++ nibble x ++ nibble y ++ 0x1#4
  | .andReg x y => 0x8#4 ++ nibble x ++ nibble y ++ 0x2#4
  | .xorReg x y => 0x8#4 ++ nibble x ++ nibble y ++ 0x3#4
  | .addReg x y => 0x8#4 ++ nibble x ++ nibble y ++ 0x4#4
  | .subReg x y => 0x8#4 ++ nibble x ++ nibble y ++ 0x5#4
  | .shr x y => 0x8#4 ++ nibble x ++ nibble y ++ 0x6#4
  | .subnReg x y => 0x8#4 ++ nibble x ++ nibble y ++ 0x7#4
  | .shl x y => 0x8#4 ++ nibble x ++ nibble y ++ 0xE#4
  | .drw x y n => 0xD#4 ++ nibble x ++ nibble y ++ nibble n
  | .ldVxDt x => 0xF#4 ++ nibble x ++ 0x07#8
  | .ldVxK x => 0xF#4 ++ nibble x ++ 0x0A#8
  | .ldDtVx x => 0xF#4 ++ nibble x ++ 0x15#8
  | .ldStVx x => 0xF#4 ++ nibble x ++ 0x18#8
  | .addI x => 0xF#4 ++ nibble x ++ 0x1E#8
  | .ldF x => 0xF#4 ++ nibble x ++ 0x29#8
  | .ldB x => 0xF#4 ++ nibble x ++ 0x33#8
  | .storeRegs x => 0xF#4 ++ nibble x ++ 0x55#8
  | .loadRegs x => 0xF#4 ++ nibble x ++ 0x65#8

/-! ## The opcode map as a table (R56) -/

/-- One row of the opcode map: a word is the row's instruction exactly when `w &&& mask = want`. -/
structure OpcodeRow where
  pattern : String
  want : Word
  mask : Word
  build : Word → Instr

/-- Rows of the control-flow group (R80 to R90). -/
def controlFlowRows : List OpcodeRow := [
  ⟨"00E0", 0x00E0#16, 0xFFFF#16, fun _ => .cls⟩,
  ⟨"00EE", 0x00EE#16, 0xFFFF#16, fun _ => .ret⟩,
  ⟨"1nnn", 0x1000#16, 0xF000#16, fun w => .jp (fieldNnn w)⟩,
  ⟨"2nnn", 0x2000#16, 0xF000#16, fun w => .call (fieldNnn w)⟩,
  ⟨"3xkk", 0x3000#16, 0xF000#16, fun w => .seImm (fieldX w) (fieldKk w)⟩,
  ⟨"4xkk", 0x4000#16, 0xF000#16, fun w => .sneImm (fieldX w) (fieldKk w)⟩,
  ⟨"5xy0", 0x5000#16, 0xF00F#16, fun w => .seReg (fieldX w) (fieldY w)⟩,
  ⟨"9xy0", 0x9000#16, 0xF00F#16, fun w => .sneReg (fieldX w) (fieldY w)⟩,
  ⟨"Bnnn", 0xB000#16, 0xF000#16, fun w => .jpV0 (fieldNnn w)⟩,
  ⟨"Ex9E", 0xE09E#16, 0xF0FF#16, fun w => .skp (fieldX w)⟩,
  ⟨"ExA1", 0xE0A1#16, 0xF0FF#16, fun w => .sknp (fieldX w)⟩]

/-- Rows of the immediate and ALU groups (R95 to R98, R101 to R109). -/
def arithmeticRows : List OpcodeRow := [
  ⟨"6xkk", 0x6000#16, 0xF000#16, fun w => .ldImm (fieldX w) (fieldKk w)⟩,
  ⟨"7xkk", 0x7000#16, 0xF000#16, fun w => .addImm (fieldX w) (fieldKk w)⟩,
  ⟨"Annn", 0xA000#16, 0xF000#16, fun w => .ldI (fieldNnn w)⟩,
  ⟨"Cxkk", 0xC000#16, 0xF000#16, fun w => .rnd (fieldX w) (fieldKk w)⟩,
  ⟨"8xy0", 0x8000#16, 0xF00F#16, fun w => .ldReg (fieldX w) (fieldY w)⟩,
  ⟨"8xy1", 0x8001#16, 0xF00F#16, fun w => .orReg (fieldX w) (fieldY w)⟩,
  ⟨"8xy2", 0x8002#16, 0xF00F#16, fun w => .andReg (fieldX w) (fieldY w)⟩,
  ⟨"8xy3", 0x8003#16, 0xF00F#16, fun w => .xorReg (fieldX w) (fieldY w)⟩,
  ⟨"8xy4", 0x8004#16, 0xF00F#16, fun w => .addReg (fieldX w) (fieldY w)⟩,
  ⟨"8xy5", 0x8005#16, 0xF00F#16, fun w => .subReg (fieldX w) (fieldY w)⟩,
  ⟨"8xy6", 0x8006#16, 0xF00F#16, fun w => .shr (fieldX w) (fieldY w)⟩,
  ⟨"8xy7", 0x8007#16, 0xF00F#16, fun w => .subnReg (fieldX w) (fieldY w)⟩,
  ⟨"8xyE", 0x800E#16, 0xF00F#16, fun w => .shl (fieldX w) (fieldY w)⟩]

/-- Rows of the draw and miscellaneous groups (R115, R125 to R133). -/
def drawAndMiscRows : List OpcodeRow := [
  ⟨"Dxyn", 0xD000#16, 0xF000#16, fun w => .drw (fieldX w) (fieldY w) (fieldN w)⟩,
  ⟨"Fx07", 0xF007#16, 0xF0FF#16, fun w => .ldVxDt (fieldX w)⟩,
  ⟨"Fx0A", 0xF00A#16, 0xF0FF#16, fun w => .ldVxK (fieldX w)⟩,
  ⟨"Fx15", 0xF015#16, 0xF0FF#16, fun w => .ldDtVx (fieldX w)⟩,
  ⟨"Fx18", 0xF018#16, 0xF0FF#16, fun w => .ldStVx (fieldX w)⟩,
  ⟨"Fx1E", 0xF01E#16, 0xF0FF#16, fun w => .addI (fieldX w)⟩,
  ⟨"Fx29", 0xF029#16, 0xF0FF#16, fun w => .ldF (fieldX w)⟩,
  ⟨"Fx33", 0xF033#16, 0xF0FF#16, fun w => .ldB (fieldX w)⟩,
  ⟨"Fx55", 0xF055#16, 0xF0FF#16, fun w => .storeRegs (fieldX w)⟩,
  ⟨"Fx65", 0xF065#16, 0xF0FF#16, fun w => .loadRegs (fieldX w)⟩]

/-- The 34 rows of R56 in the table's order. -/
def opcodeMap : List OpcodeRow := controlFlowRows ++ arithmeticRows ++ drawAndMiscRows

/-- The reading of a word that the opcode map gives: the first row it matches, or unimplemented (R57).
The machine decodes with `decode`; that the two agree is a statement. -/
def decodeByMap (w : Word) : Except DecodeReject Instr :=
  match opcodeMap.find? (fun r => w &&& r.mask == r.want) with
  | some r => .ok (r.build w)
  | none => .error (.unimplementedOpcode w)

/-! ## The host's numbering of table words -/

/-- The instruction the decoder reads from the word `w` of `nbits` bits, laid out high byte first. -/
def decodeTableWord (nbits w : Nat) : Option Instr :=
  match decodeBytes (bytesOfWord (BitVec.ofNat 16 (w % 2 ^ nbits))) with
  | .ok (i, _) => some i
  | .error _ => none

end Sys2Proof
end

