-- ==== Sys2Proof/Machine/Fetch.lean ====
section
/-! DEFINITION. The guard and the fetch of a cycle (R66, R67). -/

namespace Sys2Proof.Machine

/-- The guard refuses the cycle: `pc + 1 >= FETCH_LIMIT`, on a sum that does not wrap (R66). -/
def State.fetchRefused (s : State) : Bool := decide (s.pc.toNat + 1 ≥ s.params.fetchLimit.val)

/-- `MemRead(pc, 2)`, big-endian (R35, R67). -/
def State.fetchWord (s : State) : Word :=
  wordOfBytes (s.byte s.pc.toNat) (s.byte (s.pc.toNat + 1))

/-- The state the instruction's body starts from: the fetched word latched (R67). -/
def State.fetched (s : State) : State := s.setOpc s.fetchWord

end Sys2Proof.Machine
end

