-- ==== Sys2Proof/Machine/Step.lean ====
section
/-! DEFINITION. One cycle, `advance()` (R65), and the placing of a word where it fetches. -/

namespace Sys2Proof.Machine

/-- One cycle: guard, fetch, decode, dispatch, completion (R65). A word that decodes to no instruction
completes as a no-op (R73). What the cycle reports beside the next state is `advance` in HostPort.lean. -/
def step (s : State) : Host.Outcome State Fault Refusal :=
  if s.fetchRefused then .fault (.addressOutOfBounds s.pc)
  else
    match decode s.fetchWord with
    | .ok i => exec i s.fetched
    | .error _ => .next s.fetched.completeUnimplemented

/-- `s` itself where the guard lets the next cycle fetch; else `s` at the program's base, and with the
default `FETCH_LIMIT` where the guard refuses that too (log entry 18). -/
def State.readyToFetch (s : State) : State :=
  if s.fetchRefused then
    let b := s.setPc Config.progBase
    if b.fetchRefused then { b with params.fetchLimit := defaultFetchLimit } else b
  else s

/-- `s` with the word `w` where the next step fetches, high byte first (log entry 18). -/
def State.withFetchWord (s : State) (nbits w : Nat) : State :=
  s.readyToFetch.store s.readyToFetch.pc.toNat (bytesOfWord (BitVec.ofNat 16 (w % 2 ^ nbits)))

end Sys2Proof.Machine
end

