-- ==== Sys2Proof/WellFormed.lean ====
section
/-! DEFINITION. What the spec asks of an instruction and of a program image beyond their types. Every
operand type already holds exactly the values its field can encode (R11, R54), so the checks left are
the operand choices to which the spec gives no meaning, and the size of an image. -/

namespace Sys2Proof

/-- The instruction has a meaning in the spec: `Dxyn` with `VF` as its column register or as its row
register has none (R120, U5); every other operand choice has one. -/
def Instr.wellFormed : Instr → Bool
  | .drw x y _ => x != Config.flagReg && y != Config.flagReg
  | _ => true

/-- A program image fits: at most 4096 - 512 = 3584 bytes (R31, R161). -/
def imageFits (image : List Byte) : Bool :=
  Config.progBase.toNat + image.length ≤ Config.memSize

end Sys2Proof
end

