-- ==== Sys2Proof/Machine/HostPort.lean ====
section
/-! DEFINITION. The host's side of the CORE (R25): the operations `init()`, `load(bytes)` and `advance()`
with their reports, the writes of `keys` and the supply of `RAND` between cycles, and the order the
operations come in (R24, R161 to R163). -/

namespace Sys2Proof.Machine

/-- What an operation reports to its caller (R75, R140). -/
inductive Report where
  | ok
  /-- A diagnostic beside a completed cycle (R143). -/
  | unimplementedOpcode (w : Word)
  /-- The guard refused the cycle (R141). -/
  | addressOutOfBounds (pc : Word)
  /-- The image does not fit (R142). -/
  | loadOverflow
  deriving DecidableEq, Repr

/-- The report of a cycle that passed the guard: the diagnostic for a word that decodes to nothing. -/
def State.cycleReport (s : State) : Report :=
  match decode s.fetchWord with
  | .ok _ => .ok
  | .error _ => .unimplementedOpcode s.fetchWord

/-- `advance()` with its report (R75): a refused cycle changes nothing (R66). The cases of R144 have no
report; they stop as the step does. -/
def advance (s : State) : Host.Outcome (Report × State) Fault Refusal :=
  match step s with
  | .next t => .next (s.cycleReport, t)
  | .fault (.addressOutOfBounds pc) => .next (.addressOutOfBounds pc, s)
  | .fault f => .fault f
  | .refused r => .refused r

/-- `init()` from an existing state (R160): the reset state of the same machine. The input `RAND` is outside
the aggregate (R22) and is not rewound (log entry 20). -/
def State.init (s : State) : State :=
  { State.resetWith s.params with randInput := s.randInput, draws := s.draws }

/-- The image fits at `pc` (R161). -/
def State.loadFits (s : State) (image : List Byte) : Bool :=
  s.pc.toNat + image.length ≤ Config.memSize

/-- Memory after a load that fails: each byte from `a` to 4095 is either the image's or as it was, which
one a free value says (R162, U7; log entry 2). -/
def Memory.loadPart (font : Font) (m : Memory) (draw a : Nat) : List Byte → Memory
  | [] => m
  | b :: bs =>
    if a < Config.memSize then
      Memory.loadPart font (if Config.loadCopies draw a then Memory.write font m a b else m) draw (a + 1) bs
    else m

/-- The state after `load(image)` (R161, R162). -/
def State.load (s : State) (image : List Byte) : State :=
  if s.loadFits image then s.store s.pc.toNat image
  else { s.setMem (Memory.loadPart s.params.font s.mem s.draws s.pc.toNat image) with draws := s.draws + 1 }

/-- Where the host is in the lifecycle (R163). -/
inductive Session where
  /-- Before the first `init()`: no state exists, only the machine's parameters (R24, R4). -/
  | beforeInit (p : Params)
  /-- Directly after `init()`: `load` may come (R161). -/
  | ready (s : State)
  /-- After a successful `load`, or after a first cycle. -/
  | running (s : State)
  /-- After a failed `load`: only `init()` is accepted (R162). -/
  | notRunnable (s : State)
  deriving DecidableEq, Repr

/-- What the host can do between cycles (R25). -/
inductive HostAction where
  | init
  | load (image : List Byte)
  | advance
  /-- `keys[k] <- v` (R166). -/
  | writeKey (k : Idx) (v : Nat)
  /-- One more byte for `RAND` (R99, R166). -/
  | supplyRand (r : Byte)
  deriving DecidableEq, Repr

/-- The state of a session, once there is one: what the host may read the framebuffer of (R25). -/
def Session.state? : Session → Option State
  | .beforeInit _ => none
  | .ready s => some s
  | .running s => some s
  | .notRunnable s => some s

/-- The parameters of the session's machine, which nothing changes (R4). -/
def Session.params : Session → Params
  | .beforeInit p => p
  | .ready s => s.params
  | .running s => s.params
  | .notRunnable s => s.params

/-- The session with its state changed by a write of the host's, in the same place of the lifecycle. -/
def Session.update (f : State → State) : Session → Session
  | .beforeInit p => .beforeInit p
  | .ready s => .ready (f s)
  | .running s => .running (f s)
  | .notRunnable s => .notRunnable (f s)

/-- The host's `advance()` on the state `s`. -/
def Session.runCycle (s : State) : Host.Outcome (Report × Session) Fault Refusal :=
  match Machine.advance s with
  | .next (r, t) => .next (r, .running t)
  | .fault f => .fault f
  | .refused r => .refused r

/-- One operation or write of the host (R24, R25, R160 to R163). -/
def Session.perform (a : HostAction) (c : Session) : Host.Outcome (Report × Session) Fault Refusal :=
  match a, c with
  | .init, .beforeInit p => .next (.ok, .ready (State.resetWith p))
  | .init, .ready s => .next (.ok, .ready s.init)
  | .init, .running s => .next (.ok, .ready s.init)
  | .init, .notRunnable s => .next (.ok, .ready s.init)
  | .load _, .beforeInit _ => .refused .beforeInit
  | .load image, .ready s =>
    if s.loadFits image then .next (.ok, .running (s.load image))
    else .next (.loadOverflow, .notRunnable (s.load image))
  | .load _, .running _ => .refused .loadOutsideLifecycle
  | .load _, .notRunnable _ => .refused .notRunnable
  | .advance, .beforeInit _ => .refused .beforeInit
  | .advance, .ready s => Session.runCycle s
  | .advance, .running s => Session.runCycle s
  | .advance, .notRunnable _ => .refused .notRunnable
  | .writeKey _ _, .beforeInit _ => .refused .beforeInit
  | .writeKey k v, c => .next (.ok, c.update (fun s => s.setKey k v))
  | .supplyRand _, .beforeInit _ => .refused .beforeInit
  | .supplyRand r, c => .next (.ok, c.update (fun s => { s with randInput := s.randInput ++ [r] }))

end Sys2Proof.Machine
end

