-- ==== Sys2Proof/Safety.lean ====
section
/-! DEFINITION. What counts as a well-formed state and a safe cycle, in the terms the statements use. -/

namespace Sys2Proof.Machine

/-- The largest value `pc` can hold: `nnn + V[0]` of `Bnnn` (R14, R88). -/
def maxPc : Nat := 0x10FE

/-- The largest `pc` that executes, hence the largest return address a CALL pushes (R14). -/
def maxExecPc : Nat := 4094

/-- What every state of a run from reset satisfies: `SP` in its legal range (R16), `pc` and the stack slots
in the range R14 derives, and memory in the model's own canonical form (log entry 17). -/
abbrev State.Inv (s : State) : Prop :=
  Memory.wf s.params.font s.mem = true ∧ s.sp.toNat ≤ Config.stackDepth ∧ s.pc.toNat ≤ maxPc ∧
    ∀ k : Idx, (s.stack[k]).toNat ≤ maxExecPc

/-- The instruction, in this state, is one of the cases to which the spec gives no result (R144). -/
def Unspecified (i : Instr) (s : State) : Prop :=
  match i with
  | .ret => s.sp = 0#5 ∨ s.sp.toNat > Config.stackDepth
  | .call _ => s.sp.toNat ≥ Config.stackDepth
  | .skp x => (s.reg x).toNat ≥ 16
  | .sknp x => (s.reg x).toNat ≥ 16
  | .drw x y n =>
    x = Config.flagReg ∨ y = Config.flagReg ∨ (n.val ≥ 1 ∧ s.index.toNat + n.val - 1 > 4095)
  | .ldB _ => s.index.toNat + 2 > 4095
  | .storeRegs x => s.index.toNat + x.val > 4095
  | .loadRegs x => s.index.toNat + x.val > 4095
  | _ => False

/-- The next cycle is safe: the guard passes, and the instruction is not one of the cases without a
result (R66, R144). -/
def State.Safe (s : State) : Prop :=
  s.pc.toNat + 1 < s.params.fetchLimit.val ∧ ∀ i, decode s.fetchWord = .ok i → ¬ Unspecified i s

/-- The machine waits for a key: a function of memory, `pc` and `keys` (R22 (b), R157). -/
def State.awaitingKey (s : State) : Prop :=
  s.pc.toNat + 1 < s.params.fetchLimit.val ∧ (∃ x, decode s.fetchWord = .ok (.ldVxK x)) ∧ ∀ k, s.key k = 0

/-- The spec's convention for a finished program: `pc` at a `JP` to itself (R165). -/
def State.finished (s : State) : Prop :=
  s.pc.toNat + 1 < s.params.fetchLimit.val ∧
    ∃ nnn : Addr, decode s.fetchWord = .ok (.jp nnn) ∧ nnn.toNat = s.pc.toNat

end Sys2Proof.Machine
end

