-- ==== Sys2Proof/Certificates/Slice0/Obligations.lean ====
section
/-! DEFINITION. The statements for the provers, and the vocabulary they are written in. -/

namespace Sys2Proof.Claims

open Sys2Proof.Machine

/-! ## Vocabulary -/

/-- The members of the state a frame names. -/
inductive Member where
  | regs | index | pc | stack | sp | memory | screen | timers | keys | opc | random | params
  deriving DecidableEq, Repr

/-- The member is the same in both states; memory, stack and framebuffer are compared cell by cell. The
parameters of the machine (R4) are compared beside the members of the aggregate. -/
def Kept (s t : State) : Member → Prop
  | .regs => ∀ x, t.reg x = s.reg x
  | .index => t.index = s.index
  | .pc => t.pc = s.pc
  | .stack => ∀ k, t.slot k = s.slot k
  | .sp => t.sp = s.sp
  | .memory => ∀ a, t.byte a = s.byte a
  | .screen => ∀ k, t.cell k = s.cell k
  | .timers => t.dt = s.dt ∧ t.st = s.st
  | .keys => ∀ k, t.key k = s.key k
  | .opc => t.opc = s.opc
  | .random => t.randInput = s.randInput ∧ t.draws = s.draws
  | .params => t.params = s.params

/-- Every member but the listed ones is the same. -/
def Unchanged (except : List Member) (s t : State) : Prop := ∀ m, m ∉ except → Kept s t m

/-- Every register but the listed ones is the same. -/
def OtherRegs (except : List Idx) (s t : State) : Prop := ∀ r, r ∉ except → t.reg r = s.reg r

/-- Both timers counted toward zero once (R71); the subtraction stops at 0. -/
def Ticked (s t : State) : Prop := t.dt.toNat = s.dt.toNat - 1 ∧ t.st.toNat = s.st.toNat - 1

/-- `pc` is `k` further on. -/
def PcPlus (k : Nat) (s t : State) : Prop := t.pc.toNat = (s.pc.toNat + k) % 65536

/-- The standard completion (R70), and nothing changed but `pc`, the timers and the listed members. -/
def StdNext (written : List Member) (s t : State) : Prop :=
  PcPlus 2 s t ∧ Ticked s t ∧ Unchanged (.pc :: .timers :: written) s t

/-- A skip (R72): four further on when the condition holds, two otherwise; nothing else but the timers. -/
def SkipNext (cond : Prop) (s t : State) : Prop :=
  (cond → PcPlus 4 s t) ∧ (¬ cond → PcPlus 2 s t) ∧ Ticked s t ∧ Unchanged [.pc, .timers] s t

/-- The cell `k` lies under a set bit of the `n`-row sprite at `I` drawn at `V[x]`, `V[y]` (R115, R116). -/
def UnderSprite (s : State) (x y : Idx) (n k : Nat) : Prop :=
  ∃ i j, i < n ∧ j < 8 ∧ (s.byte (s.index.toNat + i)).getLsbD (7 - j) = true ∧
    k = ((s.reg y).toNat + i) % 32 * 64 + ((s.reg x).toNat + j) % 64

/-- The members an instruction may write, `pc` and the timers apart (R26). -/
def mayWrite : Instr → List Member
  | .cls => [.screen]
  | .ret => [.sp]
  | .jp _ => []
  | .call _ => [.stack, .sp]
  | .seImm _ _ | .sneImm _ _ | .seReg _ _ | .sneReg _ _ | .jpV0 _ | .skp _ | .sknp _ => []
  | .ldImm _ _ | .addImm _ _ => [.regs]
  | .ldI _ => [.index]
  | .rnd _ _ => [.regs, .random]
  | .ldReg _ _ | .orReg _ _ | .andReg _ _ | .xorReg _ _ | .addReg _ _ | .subReg _ _ | .shr _ _
  | .subnReg _ _ | .shl _ _ => [.regs]
  | .drw _ _ _ => [.regs, .screen]
  | .ldVxDt _ | .ldVxK _ => [.regs]
  | .ldDtVx _ | .ldStVx _ => []
  | .addI _ | .ldF _ => [.index]
  | .ldB _ | .storeRegs _ => [.memory]
  | .loadRegs _ => [.regs]

/-- The register is a destination of the instruction, `VF` as a flag included (R12, R26). -/
def IsDestination (r : Idx) : Instr → Prop
  | .ldImm x _ | .addImm x _ | .rnd x _ | .ldReg x _ | .orReg x _ | .andReg x _ | .xorReg x _
  | .ldVxDt x | .ldVxK x => r = x
  | .addReg x _ | .subReg x _ | .shr x _ | .subnReg x _ | .shl x _ => r = x ∨ r = 15
  | .drw _ _ _ => r = 15
  | .loadRegs x => r ≤ x
  | _ => False

/-- Where each instruction leaves `pc` (R14, R72), in a state in which it completes. -/
def PcAfter (s : State) (p : Nat) : Instr → Prop
  | .jp nnn => p = nnn.toNat
  | .call nnn => p = nnn.toNat
  | .jpV0 nnn => p = nnn.toNat + (s.reg 0).toNat
  | .ret => ∃ v, s.slot (s.sp.toNat - 1) = some v ∧ p = (v.toNat + 2) % 65536
  | .seImm x kk => p = (s.pc.toNat + if s.reg x = kk then 4 else 2) % 65536
  | .sneImm x kk => p = (s.pc.toNat + if s.reg x = kk then 2 else 4) % 65536
  | .seReg x y => p = (s.pc.toNat + if s.reg x = s.reg y then 4 else 2) % 65536
  | .sneReg x y => p = (s.pc.toNat + if s.reg x = s.reg y then 2 else 4) % 65536
  | .skp x => ∀ k : Idx, (s.reg x).toNat = k.val → p = (s.pc.toNat + if s.key k = 0 then 2 else 4) % 65536
  | .sknp x => ∀ k : Idx, (s.reg x).toNat = k.val → p = (s.pc.toNat + if s.key k = 0 then 4 else 2) % 65536
  | .ldVxK _ =>
    ((∀ k, s.key k = 0) → p = s.pc.toNat) ∧ ((∃ k, s.key k ≠ 0) → p = (s.pc.toNat + 2) % 65536)
  | _ => p = (s.pc.toNat + 2) % 65536

/-- The instruction waits: `Fx0A` with no key pressed, class `NONE` (R72). -/
def Pending (s : State) : Instr → Prop
  | .ldVxK _ => ∀ k, s.key k = 0
  | _ => False

end Sys2Proof.Claims

section
open Sys2Proof Sys2Proof.Machine Sys2Proof.Claims

/-! ## Reset and invariant -/

/-- R23: every member after `init()`, for every `FONT` and `FETCH_LIMIT` the machine is built with. -/
def Obligations.ResetValues : Prop :=
  ∀ p : Params,
    (∀ (a : Nat) (h : a < 80), (State.resetWith p).byte a = p.font[a]) ∧
    (∀ a, 80 ≤ a → (State.resetWith p).byte a = 0#8) ∧
    (∀ x, (State.resetWith p).reg x = 0#8) ∧ (State.resetWith p).index = 0#16 ∧
    (State.resetWith p).pc = 0x200#16 ∧ (∀ k, k < 16 → (State.resetWith p).slot k = some 0#16) ∧
    (State.resetWith p).sp = 0#5 ∧ (∀ k, k < 2048 → (State.resetWith p).cell k = false) ∧
    (State.resetWith p).dt = 0#8 ∧ (State.resetWith p).st = 0#8 ∧ (∀ k, (State.resetWith p).key k = 0) ∧
    (State.resetWith p).opc = 0#16 ∧ (State.resetWith p).params = p

/-- The invariant holds at reset, for all parameters. Its clause that memory is canonical is the model's own
(log entry 17). -/
def Obligations.ResetSatisfiesInvariant : Prop := State.reset.Inv ∧ ∀ p : Params, (State.resetWith p).Inv

/-- Every step from a state with the invariant leads to a state with it, whatever `FETCH_LIMIT` and `FONT`:
`SP` at most 16 (R16), `pc` at most 0x10FE and return addresses at most 4094 (R14). That memory stays
canonical is a clause about the model's own list form (log entry 17). -/
def Obligations.EveryStepKeepsInvariant : Prop :=
  ∀ s t : State, s.Inv → step s = .next t → t.Inv

/-- Every operation and write of the host, on every session whose state, if it has one, has the invariant,
leads to such a session. The session is the model's (log entry 19), and so is the clause that memory is
canonical (log entry 17). -/
def Obligations.HostActionsKeepInvariant : Prop :=
  ∀ (a : HostAction) (c d : Session) (r : Report), (∀ s, c.state? = some s → s.Inv) →
    Session.perform a c = .next (r, d) → ∀ t, d.state? = some t → t.Inv

/-! ## Encoding -/

/-- No bit of an encoding is dropped: every instruction, with every operand, is read back (`VF` as a draw
coordinate included: it is an encoding, R120). -/
def Obligations.DecodeInvertsEncode : Prop := ∀ i : Instr, decode (encode i) = .ok i

/-- A word that decodes is the word of its instruction. That no nibble of `5xyN` and `9xyN` is ignored is the
spec's own decision D8 (log entry 6). -/
def Obligations.EncodeInvertsDecode : Prop := ∀ (w : Word) (i : Instr), decode w = .ok i → encode i = w

/-- R56: a word is a row's instruction exactly when `w & mask == match`. The masks of `5xy0` and `9xy0` take
in the low nibble by the spec's own decision D8 (R58; log entry 6). -/
def Obligations.DecodeIsTheOpcodeMap : Prop :=
  opcodeMap.length = 34 ∧
  ∀ r ∈ opcodeMap, ∀ w : Word, w &&& r.mask = r.want ↔ decode w = .ok (r.build w)

/-- R57, R58: the unimplemented words, family by family; families 5 and 9 by the spec's own decision D8
(log entry 6). -/
def Obligations.UnimplementedWords : Prop :=
  ∀ w : Word, decode w = .error (.unimplementedOpcode w) ↔
    (fieldOp w = 0x0#4 ∧ w ≠ 0x00E0#16 ∧ w ≠ 0x00EE#16) ∨
    (fieldOp w = 0x5#4 ∧ fieldN w ≠ 0) ∨
    (fieldOp w = 0x8#4 ∧ fieldN w ∈ ([8, 9, 10, 11, 12, 13, 15] : List Idx)) ∨
    (fieldOp w = 0x9#4 ∧ fieldN w ≠ 0) ∨
    (fieldOp w = 0xE#4 ∧ fieldKk w ∉ [0x9E#8, 0xA1#8]) ∨
    (fieldOp w = 0xF#4 ∧
      fieldKk w ∉ [0x07#8, 0x0A#8, 0x15#8, 0x18#8, 0x1E#8, 0x29#8, 0x33#8, 0x55#8, 0x65#8])

/-- Words of the spec's own decode table (95_test_vectors.md, 2.1), one of every family it shows. -/
def Obligations.SampleWordsDecode : Prop :=
  decode 0xD125#16 = .ok (.drw 1 2 5) ∧ decode 0x8AB4#16 = .ok (.addReg 10 11) ∧
  decode 0x3F00#16 = .ok (.seImm 15 0x00#8) ∧ decode 0xF565#16 = .ok (.loadRegs 5) ∧
  decode 0xE0A1#16 = .ok (.sknp 0) ∧ decode 0x00E0#16 = .ok .cls ∧ decode 0x00EE#16 = .ok .ret ∧
  decode 0xBFFF#16 = .ok (.jpV0 0xFFF#12) ∧ decode 0x1234#16 = .ok (.jp 0x234#12) ∧
  decode 0x0000#16 = .error (.unimplementedOpcode 0x0000#16)

/-! ## The cycle -/

/-- A cycle that passes the guard runs the decoded instruction on the state with the word latched, whatever
`FETCH_LIMIT` is, the parameter whose default 4096 is the spec's own decision D1 (log entries 4 and 28).
That a pending key-wait latches its word too is the spec's own decision D19 (log entry 13). -/
def Obligations.StepRunsDecodedInstruction : Prop :=
  ∀ (s : State) (i : Instr), s.pc.toNat + 1 < s.params.fetchLimit.val →
    decode (s.byte s.pc.toNat ++ s.byte (s.pc.toNat + 1)) = .ok i →
    step s = exec i { s with opc := s.byte s.pc.toNat ++ s.byte (s.pc.toNat + 1) }

/-- R67, R35: every completed cycle latches the big-endian word at `pc`, whatever the instruction; that a
pending key-wait does so too is the spec's own decision D19 (log entry 13). -/
def Obligations.EveryCycleLatchesItsWord : Prop :=
  ∀ s t : State, step s = .next t →
    t.opc.toNat = (s.byte s.pc.toNat).toNat * 256 + (s.byte (s.pc.toNat + 1)).toNat

/-- R66: the guard refuses exactly when `pc + 1 >= FETCH_LIMIT`, for every value of the parameter; nothing
changes and the condition is reported, on every later cycle too. With the default parameters the bound is
4096, the spec's own decision D1 (log entry 4); the fault of `step` is the model's form of the condition
(log entry 11), the `pc` it carries the spec's own decision D26 (log entry 26). -/
def Obligations.GuardRefusesFetchOutsideMemory : Prop :=
  (∀ (s : State) (p : Word),
    step s = .fault (.addressOutOfBounds p) ↔ s.pc.toNat + 1 ≥ s.params.fetchLimit.val ∧ p = s.pc) ∧
  (∀ s : State, s.pc.toNat + 1 ≥ s.params.fetchLimit.val → advance s = .next (.addressOutOfBounds s.pc, s)) ∧
  Params.default.fetchLimit.val = 4096

/-- R73: an unimplemented word is reported and is a no-op with the standard completion; that family 8
reports too is the spec's own decision D9 (log entry 12), and the word in the report its decision D26 (log
entry 26). The guard is taken with every `FETCH_LIMIT`, whose default is its decision D1 (log entry 4). -/
def Obligations.UnimplementedWordIsReportedNoOp : Prop :=
  ∀ s : State, s.pc.toNat + 1 < s.params.fetchLimit.val →
    decode s.fetchWord = .error (.unimplementedOpcode s.fetchWord) →
    ∃ t, step s = .next t ∧ advance s = .next (.unimplementedOpcode s.fetchWord, t) ∧
      StdNext [.opc] s t ∧ t.opc = s.fetchWord

/-- R75: a cycle that runs a defined instruction reports plain `Ok`, a pending key-wait included (the spec's
own decision D24; log entry 26). -/
def Obligations.DefinedInstructionReportsOk : Prop :=
  ∀ (s t : State) (i : Instr), decode s.fetchWord = .ok i → step s = .next t → advance s = .next (.ok, t)

/-! ## Control flow -/

/-- R80. -/
def Obligations.ClearScreen : Prop :=
  decode 0x00E0#16 = .ok .cls ∧
  ∀ s : State, ∃ t, exec .cls s = .next t ∧ (∀ k, t.cell k = false) ∧ StdNext [.screen] s t

/-- R81: with a call outstanding, `pc` is the popped address plus 2; the slot keeps its value. -/
def Obligations.ReturnPopsAndAdvances : Prop :=
  decode 0x00EE#16 = .ok .ret ∧
  ∀ (s : State) (v : Word), 1 ≤ s.sp.toNat → s.sp.toNat ≤ 16 → s.slot (s.sp.toNat - 1) = some v →
    ∃ t, exec .ret s = .next t ∧ t.pc.toNat = (v.toNat + 2) % 65536 ∧ t.sp.toNat = s.sp.toNat - 1 ∧
      Ticked s t ∧ Unchanged [.pc, .sp, .timers] s t

/-- R82, R88: the targets, unreduced. -/
def Obligations.JumpTargets : Prop :=
  ∀ (nnn : Addr) (s : State),
    decode (0x1#4 ++ nnn) = .ok (.jp nnn) ∧ decode (0xB#4 ++ nnn) = .ok (.jpV0 nnn) ∧
    (∃ t, exec (.jp nnn) s = .next t ∧ t.pc.toNat = nnn.toNat ∧ Ticked s t ∧ Unchanged [.pc, .timers] s t) ∧
    (∃ t, exec (.jpV0 nnn) s = .next t ∧ t.pc.toNat = nnn.toNat + (s.reg 0).toNat ∧ Ticked s t ∧
      Unchanged [.pc, .timers] s t)

/-- R83: the address of the CALL itself is pushed. -/
def Obligations.CallPushesItsOwnAddress : Prop :=
  ∀ (nnn : Addr) (s : State), decode (0x2#4 ++ nnn) = .ok (.call nnn) ∧
    (s.sp.toNat < 16 → ∃ t, exec (.call nnn) s = .next t ∧ t.slot s.sp.toNat = some s.pc ∧
      (∀ k, k ≠ s.sp.toNat → t.slot k = s.slot k) ∧ t.sp.toNat = s.sp.toNat + 1 ∧
      t.pc.toNat = nnn.toNat ∧ Ticked s t ∧ Unchanged [.pc, .stack, .sp, .timers] s t)

/-- R83, call/return duality: the return lands after the call and restores `SP`; the slot of the call keeps
the pushed address, every other slot is as it was, and the timers have ticked twice. -/
def Obligations.CallThenReturn : Prop :=
  ∀ (nnn : Addr) (s : State), s.sp.toNat < 16 →
    ∃ t u, exec (.call nnn) s = .next t ∧ exec .ret t = .next u ∧ u.sp = s.sp ∧ PcPlus 2 s u ∧
      u.slot s.sp.toNat = some s.pc ∧ (∀ k, k ≠ s.sp.toNat → u.slot k = s.slot k) ∧
      u.dt.toNat = s.dt.toNat - 2 ∧ u.st.toNat = s.st.toNat - 2 ∧ Unchanged [.pc, .stack, .timers] s u

/-- R92: CALL with all 16 slots taken and RET with none taken fault: the spec's own decision D6 for a case
without a result (log entry 7). -/
def Obligations.StackBoundsFault : Prop :=
  (∀ (nnn : Addr) (s : State), s.sp = 16#5 → exec (.call nnn) s = .fault .stackOverflow) ∧
  (∀ s : State, s.sp = 0#5 → exec .ret s = .fault .stackUnderflow)

/-- R84, R85. -/
def Obligations.SkipOnImmediate : Prop :=
  ∀ (x : Idx) (kk : Byte) (s : State),
    decode (0x3#4 ++ nibble x ++ kk) = .ok (.seImm x kk) ∧
    decode (0x4#4 ++ nibble x ++ kk) = .ok (.sneImm x kk) ∧
    (∃ t, exec (.seImm x kk) s = .next t ∧ SkipNext (s.reg x = kk) s t) ∧
    (∃ t, exec (.sneImm x kk) s = .next t ∧ SkipNext (s.reg x ≠ kk) s t)

/-- R86, R87. -/
def Obligations.SkipOnRegisters : Prop :=
  ∀ (x y : Idx) (s : State),
    decode (0x5#4 ++ nibble x ++ nibble y ++ 0x0#4) = .ok (.seReg x y) ∧
    decode (0x9#4 ++ nibble x ++ nibble y ++ 0x0#4) = .ok (.sneReg x y) ∧
    (∃ t, exec (.seReg x y) s = .next t ∧ SkipNext (s.reg x = s.reg y) s t) ∧
    (∃ t, exec (.sneReg x y) s = .next t ∧ SkipNext (s.reg x ≠ s.reg y) s t)

/-- R89, R90: the key is the one `V[x]` numbers; any nonzero slot is pressed. -/
def Obligations.SkipOnKey : Prop :=
  ∀ (x k : Idx) (s : State),
    decode (0xE#4 ++ nibble x ++ 0x9E#8) = .ok (.skp x) ∧
    decode (0xE#4 ++ nibble x ++ 0xA1#8) = .ok (.sknp x) ∧
    ((s.reg x).toNat = k.val →
      (∃ t, exec (.skp x) s = .next t ∧ SkipNext (s.key k ≠ 0) s t) ∧
      (∃ t, exec (.sknp x) s = .next t ∧ SkipNext (s.key k = 0) s t))

/-- R91: a key number above 15 has no result; the fault is the spec's own decision D7 (log entry 9). -/
def Obligations.KeyNumberAboveFifteenFaults : Prop :=
  ∀ (x : Idx) (s : State), (s.reg x).toNat ≥ 16 →
    exec (.skp x) s = .fault .keyIndexOutOfRange ∧ exec (.sknp x) s = .fault .keyIndexOutOfRange

/-! ## Immediates -/

/-- R95, R96: no flag; `VF` is written only as the destination. -/
def Obligations.LoadAndAddImmediate : Prop :=
  ∀ (x : Idx) (kk : Byte) (s : State),
    decode (0x6#4 ++ nibble x ++ kk) = .ok (.ldImm x kk) ∧
    decode (0x7#4 ++ nibble x ++ kk) = .ok (.addImm x kk) ∧
    (∃ t, exec (.ldImm x kk) s = .next t ∧ t.reg x = kk ∧ OtherRegs [x] s t ∧ StdNext [.regs] s t) ∧
    (∃ t, exec (.addImm x kk) s = .next t ∧ (t.reg x).toNat = ((s.reg x).toNat + kk.toNat) % 256 ∧
      OtherRegs [x] s t ∧ StdNext [.regs] s t)

/-- R97. -/
def Obligations.LoadIndexImmediate : Prop :=
  ∀ (nnn : Addr) (s : State), decode (0xA#4 ++ nnn) = .ok (.ldI nnn) ∧
    ∃ t, exec (.ldI nnn) s = .next t ∧ t.index.toNat = nnn.toNat ∧ StdNext [.index] s t

/-- R98, R99: for every byte `r` the host supplies, `V[x]` is `r & kk` and that one byte is consumed;
where the host has supplied none, the result is still masked by `kk`. The supply and the draw counter are
the model's form of the input `RAND` (D14; log entry 1). -/
def Obligations.RandomByteIsMasked : Prop :=
  ∀ (x : Idx) (kk : Byte) (s : State), decode (0xC#4 ++ nibble x ++ kk) = .ok (.rnd x kk) ∧
    ∃ t, exec (.rnd x kk) s = .next t ∧ t.reg x &&& ~~~kk = 0#8 ∧
      (∀ r rest, s.randInput = r :: rest → t.reg x = r &&& kk) ∧
      t.randInput = s.randInput.tail ∧ t.draws = s.draws + 1 ∧
      OtherRegs [x] s t ∧ StdNext [.regs, .random] s t

/-! ## ALU -/

/-- R101 to R104: `VF` keeps its value unless it is the destination. -/
def Obligations.MoveAndLogic : Prop :=
  ∀ (x y : Idx) (s : State),
    (decode (0x8#4 ++ nibble x ++ nibble y ++ 0x0#4) = .ok (.ldReg x y) ∧
      decode (0x8#4 ++ nibble x ++ nibble y ++ 0x1#4) = .ok (.orReg x y) ∧
      decode (0x8#4 ++ nibble x ++ nibble y ++ 0x2#4) = .ok (.andReg x y) ∧
      decode (0x8#4 ++ nibble x ++ nibble y ++ 0x3#4) = .ok (.xorReg x y)) ∧
    (∃ t, exec (.ldReg x y) s = .next t ∧ t.reg x = s.reg y ∧ OtherRegs [x] s t ∧ StdNext [.regs] s t) ∧
    (∃ t, exec (.orReg x y) s = .next t ∧
      (∀ b, b < 8 → (t.reg x).getLsbD b = ((s.reg x).getLsbD b || (s.reg y).getLsbD b)) ∧
      OtherRegs [x] s t ∧ StdNext [.regs] s t) ∧
    (∃ t, exec (.andReg x y) s = .next t ∧
      (∀ b, b < 8 → (t.reg x).getLsbD b = ((s.reg x).getLsbD b && (s.reg y).getLsbD b)) ∧
      OtherRegs [x] s t ∧ StdNext [.regs] s t) ∧
    (∃ t, exec (.xorReg x y) s = .next t ∧
      (∀ b, b < 8 → (t.reg x).getLsbD b = ((s.reg x).getLsbD b ^^ (s.reg y).getLsbD b)) ∧
      OtherRegs [x] s t ∧ StdNext [.regs] s t)

/-- R105: the sum is formed before any write. With `x = F` the sum, not the carry, is what stays, since the
flag is written first: the spec's own decision D10 (R100; log entry 5). -/
def Obligations.AddWithCarry : Prop :=
  ∀ (x y : Idx) (s : State), decode (0x8#4 ++ nibble x ++ nibble y ++ 0x4#4) = .ok (.addReg x y) ∧
    ∃ t, exec (.addReg x y) s = .next t ∧
      (t.reg x).toNat = ((s.reg x).toNat + (s.reg y).toNat) % 256 ∧
      (x ≠ 15 → (t.reg 15).toNat = if (s.reg x).toNat + (s.reg y).toNat > 255 then 1 else 0) ∧
      OtherRegs [x, 15] s t ∧ StdNext [.regs] s t

/-- R106, R108: the flag is 1 exactly when the minuend is strictly greater; an operand that is `VF` is
read as the flag just written, by the spec's own decision D10 (R100; log entry 5). -/
def Obligations.SubtractNotBorrow : Prop :=
  ∀ (x y : Idx) (s : State),
    let flag := fun (a b : Idx) => if (s.reg a).toNat > (s.reg b).toNat then 1 else 0
    let operand := fun (r : Idx) (f : Nat) => if r = 15 then f else (s.reg r).toNat
    decode (0x8#4 ++ nibble x ++ nibble y ++ 0x5#4) = .ok (.subReg x y) ∧
    decode (0x8#4 ++ nibble x ++ nibble y ++ 0x7#4) = .ok (.subnReg x y) ∧
    (∃ t, exec (.subReg x y) s = .next t ∧
      (t.reg x).toNat = (operand x (flag x y) + 256 - operand y (flag x y)) % 256 ∧
      (x ≠ 15 → (t.reg 15).toNat = flag x y) ∧ OtherRegs [x, 15] s t ∧ StdNext [.regs] s t) ∧
    (∃ t, exec (.subnReg x y) s = .next t ∧
      (t.reg x).toNat = (operand y (flag y x) + 256 - operand x (flag y x)) % 256 ∧
      (x ≠ 15 → (t.reg 15).toNat = flag y x) ∧ OtherRegs [x, 15] s t ∧ StdNext [.regs] s t)

/-- R107, R109: the bit shifted out is the flag; `V[F]` as the operand is read as the flag just written;
`y` plays no part. The reading of `V[F]` is the spec's own decision D10 (R100; log entry 5). -/
def Obligations.ShiftByOne : Prop :=
  ∀ (x y : Idx) (s : State),
    let operand := fun (f : Nat) => if x = 15 then f else (s.reg x).toNat
    decode (0x8#4 ++ nibble x ++ nibble y ++ 0x6#4) = .ok (.shr x y) ∧
    decode (0x8#4 ++ nibble x ++ nibble y ++ 0xE#4) = .ok (.shl x y) ∧
    (∃ t, exec (.shr x y) s = .next t ∧ (t.reg x).toNat = operand ((s.reg x).toNat % 2) / 2 ∧
      (x ≠ 15 → (t.reg 15).toNat = (s.reg x).toNat % 2) ∧ OtherRegs [x, 15] s t ∧ StdNext [.regs] s t) ∧
    (∃ t, exec (.shl x y) s = .next t ∧ (t.reg x).toNat = operand ((s.reg x).toNat / 128) * 2 % 256 ∧
      (x ≠ 15 → (t.reg 15).toNat = (s.reg x).toNat / 128) ∧ OtherRegs [x, 15] s t ∧ StdNext [.regs] s t)

/-! ## Draw -/

/-- R115 to R119: exactly the cells under set bits are inverted, both axes wrapping, and `VF` is 1 exactly
when one of them was lit. With `n = 0` no cell changes, `VF` is 0 and the draw completes, whatever `I` holds: the
spec's own decision D12 (R119; log entry 24). -/
def Obligations.DrawInvertsCellsUnderSprite : Prop :=
  ∀ (x y n : Idx) (s : State),
    decode (0xD#4 ++ nibble x ++ nibble y ++ nibble n) = .ok (.drw x y n) ∧
    (x ≠ 15 → y ≠ 15 → (n.val ≥ 1 → s.index.toNat + n.val - 1 ≤ 4095) →
      ∃ t, exec (.drw x y n) s = .next t ∧
        (∀ k, UnderSprite s x y n k → t.cell k = !s.cell k) ∧
        (∀ k, ¬ UnderSprite s x y n k → t.cell k = s.cell k) ∧
        ((∃ k, UnderSprite s x y n k ∧ s.cell k = true) → t.reg 15 = 1#8) ∧
        ((¬ ∃ k, UnderSprite s x y n k ∧ s.cell k = true) → t.reg 15 = 0#8) ∧
        OtherRegs [15] s t ∧ StdNext [.regs, .screen] s t)

/-- R121: the same draw twice restores the framebuffer, and the second one collides exactly when the
sprite has a set bit that the first drew on a dark cell. That a draw of 0 rows completes with `VF` 0 is the
spec's own decision D12 (log entry 24). -/
def Obligations.DrawTwiceRestoresScreen : Prop :=
  ∀ (x y n : Idx) (s : State), x ≠ 15 → y ≠ 15 → (n.val ≥ 1 → s.index.toNat + n.val - 1 ≤ 4095) →
    ∃ t u, exec (.drw x y n) s = .next t ∧ exec (.drw x y n) t = .next u ∧
      (∀ k, u.cell k = s.cell k) ∧
      (u.reg 15 = 1#8 ↔ ∃ k, UnderSprite s x y n k ∧ s.cell k = false)

/-- R120: `VF` as a coordinate register is refused, whatever the state: the spec's own decision D11
(log entry 10). -/
def Obligations.DrawRefusesFlagCoordinate : Prop :=
  ∀ (x y n : Idx) (s : State), x = 15 ∨ y = 15 → exec (.drw x y n) s = .refused .drawFlagCoordinate

/-! ## Miscellaneous -/

/-- R125: the value before this cycle's tick: the effect comes before the tick by the spec's own decision D15
(log entry 23). -/
def Obligations.ReadDelayTimer : Prop :=
  ∀ (x : Idx) (s : State), decode (0xF#4 ++ nibble x ++ 0x07#8) = .ok (.ldVxDt x) ∧
    ∃ t, exec (.ldVxDt x) s = .next t ∧ t.reg x = s.dt ∧ OtherRegs [x] s t ∧ StdNext [.regs] s t

/-- R127, R128: the written value ticks in the same cycle, by the spec's own decision D15 (log entry 23); the
other timer ticks too. -/
def Obligations.SetTimers : Prop :=
  ∀ (x : Idx) (s : State),
    decode (0xF#4 ++ nibble x ++ 0x15#8) = .ok (.ldDtVx x) ∧
    decode (0xF#4 ++ nibble x ++ 0x18#8) = .ok (.ldStVx x) ∧
    (∃ t, exec (.ldDtVx x) s = .next t ∧ t.dt.toNat = (s.reg x).toNat - 1 ∧ t.st.toNat = s.st.toNat - 1 ∧
      PcPlus 2 s t ∧ Unchanged [.pc, .timers] s t) ∧
    (∃ t, exec (.ldStVx x) s = .next t ∧ t.st.toNat = (s.reg x).toNat - 1 ∧ t.dt.toNat = s.dt.toNat - 1 ∧
      PcPlus 2 s t ∧ Unchanged [.pc, .timers] s t)

/-- R168: a delay read right after it is set reads one less, or 0, by the spec's own decision D15 (log entry
23). -/
def Obligations.DelaySetThenRead : Prop :=
  ∀ (x y : Idx) (s : State), ∃ t u, exec (.ldDtVx x) s = .next t ∧ exec (.ldVxDt y) t = .next u ∧
    (u.reg y).toNat = (s.reg x).toNat - 1

/-- R126: the least pressed key is recorded; with none pressed nothing at all changes. -/
def Obligations.KeyWaitRecordsLeastKey : Prop :=
  ∀ (x : Idx) (s : State), decode (0xF#4 ++ nibble x ++ 0x0A#8) = .ok (.ldVxK x) ∧
    (∀ k : Idx, s.key k ≠ 0 → (∀ j, j < k → s.key j = 0) →
      ∃ t, exec (.ldVxK x) s = .next t ∧ (t.reg x).toNat = k.val ∧ OtherRegs [x] s t ∧
        StdNext [.regs] s t) ∧
    ((∀ k, s.key k = 0) → exec (.ldVxK x) s = .next s)

/-- R126: while no key is pressed, any number of cycles leaves everything but the latch as it was (that the
latch is written is the spec's own decision D19; log entry 13). -/
def Obligations.PendingKeyWaitRepeats : Prop :=
  ∀ (s : State) (n : Nat), s.awaitingKey → 1 ≤ n →
    Host.Core.run Sys2Proof.core n s = .next { s with opc := s.fetchWord }

/-- R129: 16 bits, no flag. -/
def Obligations.AddToIndex : Prop :=
  ∀ (x : Idx) (s : State), decode (0xF#4 ++ nibble x ++ 0x1E#8) = .ok (.addI x) ∧
    ∃ t, exec (.addI x) s = .next t ∧ t.index.toNat = (s.index.toNat + (s.reg x).toNat) % 65536 ∧
      StdNext [.index] s t

/-- R130: five bytes a glyph; a value of 16 or more leaves `I` as it was. -/
def Obligations.GlyphAddress : Prop :=
  ∀ (x : Idx) (s : State), decode (0xF#4 ++ nibble x ++ 0x29#8) = .ok (.ldF x) ∧
    ∃ t, exec (.ldF x) s = .next t ∧
      t.index.toNat = (if (s.reg x).toNat < 16 then (s.reg x).toNat * 5 else s.index.toNat) ∧
      StdNext [.index] s t

/-- R131: three digits at `I`, `I + 1`, `I + 2`; no other byte changes. -/
def Obligations.StoreDecimalDigits : Prop :=
  ∀ (x : Idx) (s : State), decode (0xF#4 ++ nibble x ++ 0x33#8) = .ok (.ldB x) ∧
    (s.index.toNat + 2 ≤ 4095 →
      ∃ t, exec (.ldB x) s = .next t ∧
        (t.byte s.index.toNat).toNat = (s.reg x).toNat / 100 ∧
        (t.byte (s.index.toNat + 1)).toNat = (s.reg x).toNat / 10 % 10 ∧
        (t.byte (s.index.toNat + 2)).toNat = (s.reg x).toNat % 10 ∧
        (∀ a, a < s.index.toNat ∨ s.index.toNat + 2 < a → t.byte a = s.byte a) ∧
        StdNext [.memory] s t)

/-- R132: `V[0]`..`V[x]` at `I`..`I + x`; no other byte changes, and `I` does not move. -/
def Obligations.StoreRegisterBlock : Prop :=
  ∀ (x : Idx) (s : State), decode (0xF#4 ++ nibble x ++ 0x55#8) = .ok (.storeRegs x) ∧
    (s.index.toNat + x.val ≤ 4095 →
      ∃ t, exec (.storeRegs x) s = .next t ∧
        (∀ k, k ≤ x → t.byte (s.index.toNat + k.val) = s.reg k) ∧
        (∀ a, a < s.index.toNat ∨ s.index.toNat + x.val < a → t.byte a = s.byte a) ∧
        StdNext [.memory] s t)

/-- R133: `V[0]`..`V[x]` from `I`..`I + x`; the registers above `V[x]` keep their values. -/
def Obligations.LoadRegisterBlock : Prop :=
  ∀ (x : Idx) (s : State), decode (0xF#4 ++ nibble x ++ 0x65#8) = .ok (.loadRegs x) ∧
    (s.index.toNat + x.val ≤ 4095 →
      ∃ t, exec (.loadRegs x) s = .next t ∧
        (∀ k, k ≤ x → t.reg k = s.byte (s.index.toNat + k.val)) ∧
        (∀ k, x < k → t.reg k = s.reg k) ∧ StdNext [.regs] s t)

/-- R133, round trip: loading the block a store left, from a state with any registers, restores them. -/
def Obligations.StoreThenLoadRestores : Prop :=
  ∀ (x : Idx) (s t t' : State), exec (.storeRegs x) s = .next t → t'.index = t.index →
    (∀ a, t'.byte a = t.byte a) →
    ∃ u, exec (.loadRegs x) t' = .next u ∧ ∀ k, k ≤ x → u.reg k = s.reg k

/-- R36, R45: the next fetch over stored bytes reads `V[k]` as its high byte and `V[k + 1]` as its low. -/
def Obligations.StoreSeenByNextFetch : Prop :=
  ∀ (x k k' : Idx) (s t : State), exec (.storeRegs x) s = .next t → k'.val = k.val + 1 → k' ≤ x →
    t.pc.toNat = s.index.toNat + k.val → t.fetchWord = s.reg k ++ s.reg k'

/-- R38: the four memory instructions fault, before any change, exactly when a data address is above
4095: the spec's own decision D5 (log entry 8). With no byte to draw there is no address. -/
def Obligations.DataAddressOutsideMemoryFaults : Prop :=
  ∀ (x y n : Idx) (s : State),
    (exec (.ldB x) s = .fault .dataAddressOutOfRange ↔ s.index.toNat + 2 > 4095) ∧
    (exec (.storeRegs x) s = .fault .dataAddressOutOfRange ↔ s.index.toNat + x.val > 4095) ∧
    (exec (.loadRegs x) s = .fault .dataAddressOutOfRange ↔ s.index.toNat + x.val > 4095) ∧
    (x ≠ 15 → y ≠ 15 → (exec (.drw x y n) s = .fault .dataAddressOutOfRange ↔
      n.val ≥ 1 ∧ s.index.toNat + n.val - 1 > 4095))

/-! ## The whole instruction set -/

/-- R144: an instruction completes exactly when it is none of the cases without a result; the condition
is on the state and the operands alone. That the others stop is the spec's treatment (log entries 7 to 10). -/
def Obligations.CompletesExactlyWhenSpecified : Prop :=
  ∀ (i : Instr) (s : State), (∃ t, exec i s = .next t) ↔ ¬ Unspecified i s

/-- R144: which instruction meets which stop. No instruction raises a condition of the hardware (R140)
and none is unmodelled. The names of the stops are the model's (log entries 7 to 10). -/
def Obligations.StopsAreTheListedCases : Prop :=
  (∀ (i : Instr) (s : State) (f : Fault), exec i s = .fault f →
    (f = .stackOverflow ∧ ∃ nnn, i = .call nnn) ∨ (f = .stackUnderflow ∧ i = .ret ∧ s.sp = 0#5) ∨
    (f = .stackSlotAbsent ∧ i = .ret ∧ s.sp.toNat > 16) ∨
    (f = .keyIndexOutOfRange ∧ ∃ x, i = .skp x ∨ i = .sknp x) ∨
    (f = .dataAddressOutOfRange ∧ ∃ x y n, i = .ldB x ∨ i = .storeRegs x ∨ i = .loadRegs x ∨ i = .drw x y n)) ∧
  (∀ (i : Instr) (s : State) (r : Refusal), exec i s = .refused r →
    r = .drawFlagCoordinate ∧ ∃ x y n, i = .drw x y n ∧ (x = 15 ∨ y = 15))

/-- R26: no instruction writes a member it is not listed for. -/
def Obligations.OnlyListedWritersWrite : Prop :=
  ∀ (i : Instr) (s t : State), exec i s = .next t → Unchanged (.pc :: .timers :: mayWrite i) s t

/-- R12, R26: no register changes but a destination, and `VF` as a flag only by its six writers. -/
def Obligations.OnlyDestinationRegistersChange : Prop :=
  ∀ (i : Instr) (s t : State) (r : Idx), exec i s = .next t → ¬ IsDestination r i → t.reg r = s.reg r

/-- R72, R14: where every instruction leaves `pc`, that the timers tick once in every completed cycle
(after the instruction's own write of one, by the spec's own decision D15; log entry 23), and that a pending
wait does neither. -/
def Obligations.CompletionClasses : Prop :=
  ∀ (i : Instr) (s t : State), exec i s = .next t →
    PcAfter s t.pc.toNat i ∧ (Pending s i → t = s) ∧
    (¬ Pending s i →
      ((∀ x, i ≠ .ldDtVx x) → t.dt.toNat = s.dt.toNat - 1) ∧
      ((∀ x, i ≠ .ldStVx x) → t.st.toNat = s.st.toNat - 1) ∧
      (∀ x, i = .ldDtVx x → t.dt.toNat = (s.reg x).toNat - 1) ∧
      (∀ x, i = .ldStVx x → t.st.toNat = (s.reg x).toNat - 1))

/-- R76: in a safe state the cycle answers a next state: no instruction stops the machine. What is not safe
is the spec's treatment of R66 and R144 (log entries 4, 7 to 11). -/
def Obligations.SafeStatesStep : Prop := ∀ s : State, s.Safe → ∃ t, step s = .next t

/-- R165 (the spec's own convention D20, from general knowledge): at a jump to itself only the timers and the
latch change, and the program stays finished. -/
def Obligations.FinishedProgramsStayFinished : Prop :=
  ∀ s : State, s.finished → ∃ t, step s = .next t ∧ Ticked s t ∧ Unchanged [.timers, .opc] s t ∧ t.finished

/-! ## The host's side -/

/-- R160, R27: `init()` succeeds from any session and leaves every member at its reset value; the machine's
parameters stay. The input `RAND`, which is no member, is not rewound: a session that has a state keeps its
supply and its counter (the model's reading; log entry 20). -/
def Obligations.InitGivesResetState : Prop :=
  ∀ c : Session, ∃ t, Session.perform .init c = .next (.ok, .ready t) ∧
    Unchanged [.random] (State.resetWith c.params) t ∧
    ∀ s, c.state? = some s → t.randInput = s.randInput ∧ t.draws = s.draws

/-- R161: a fitting image is copied to `pc` upward; nothing but memory changes. The session is the model's
(log entry 19). -/
def Obligations.LoadPlacesImage : Prop :=
  ∀ (s : State) (image : List Byte), s.pc.toNat + image.length ≤ 4096 →
    ∃ t, Session.perform (.load image) (.ready s) = .next (.ok, .running t) ∧
      (∀ (k : Nat) (h : k < image.length), t.byte (s.pc.toNat + k) = image[k]) ∧
      (∀ a, a < s.pc.toNat ∨ s.pc.toNat + image.length ≤ a → t.byte a = s.byte a) ∧
      Unchanged [.memory] s t

/-- R162: a load that does not fit is reported; each byte from `pc` is the old one or the image's, no
other changes, and only `init()` is accepted next: the spec's own decision D17 (log entries 2 and 19). -/
def Obligations.FailedLoadIsNotRunnable : Prop :=
  ∀ (s : State) (image : List Byte), s.pc.toNat + image.length > 4096 →
    ∃ t, Session.perform (.load image) (.ready s) = .next (.loadOverflow, .notRunnable t) ∧
      (∀ (k : Nat) (h : k < image.length), s.pc.toNat + k ≤ 4095 →
        t.byte (s.pc.toNat + k) = s.byte (s.pc.toNat + k) ∨ t.byte (s.pc.toNat + k) = image[k]) ∧
      (∀ a, a < s.pc.toNat ∨ 4096 ≤ a → t.byte a = s.byte a) ∧
      Unchanged [.memory, .random] s t ∧ t.randInput = s.randInput ∧
      Session.perform .advance (.notRunnable t) = .refused .notRunnable ∧
      ∀ image', Session.perform (.load image') (.notRunnable t) = .refused .notRunnable

/-- R24, R161, R162: before `init()` nothing else is accepted, and `load` only directly after it: once a
`load` or a cycle has been, no action but `init()` leads back to where a `load` is accepted. The spec's own
decisions D18, D16 and D17 (log entry 19). -/
def Obligations.LifecycleRefusals : Prop :=
  (∀ (a : HostAction) (p : Params), a ≠ .init → Session.perform a (.beforeInit p) = .refused .beforeInit) ∧
  (∀ (image : List Byte) (s : State),
    Session.perform (.load image) (.running s) = .refused .loadOutsideLifecycle ∧
    Session.perform (.load image) (.notRunnable s) = .refused .notRunnable) ∧
  (∀ (image : List Byte) (s : State), ∃ t, Session.perform (.load image) (.ready s) = .next (.ok, .running t) ∨
    Session.perform (.load image) (.ready s) = .next (.loadOverflow, .notRunnable t)) ∧
  (∀ (s : State) (r : Report) (d : Session),
    Session.perform .advance (.ready s) = .next (r, d) → ∃ t, d = .running t) ∧
  (∀ (a : HostAction) (s : State) (r : Report) (d : Session), a ≠ .init →
    Session.perform a (.running s) = .next (r, d) → ∃ t, d = .running t) ∧
  (∀ (a : HostAction) (s : State) (r : Report) (d : Session), a ≠ .init →
    Session.perform a (.notRunnable s) = .next (r, d) → ∃ t, d = .notRunnable t)

/-- R25, R172: a key write sets one slot and changes nothing else, in every session that has a state, and
leaves the session where it was in the lifecycle (log entry 19). -/
def Obligations.HostWritesOneKey : Prop :=
  ∀ (s : State) (k : Idx) (v : Nat),
    ∃ t, Session.perform (.writeKey k v) (.ready s) = .next (.ok, .ready t) ∧
      Session.perform (.writeKey k v) (.running s) = .next (.ok, .running t) ∧
      Session.perform (.writeKey k v) (.notRunnable s) = .next (.ok, .notRunnable t) ∧ t.key k = v ∧
      (∀ j, j ≠ k → t.key j = s.key j) ∧ Unchanged [.keys] s t

end
end

