-- ==== Sys2Proof/Laws/Decode.lean ====
section
/-! SUPPORT. The fields of a word written digit by digit (R52), for the three layouts of R53. -/

namespace Sys2Proof

/-! ### Slices of a concatenation -/

section Slices
variable {m n : Nat} (a : BitVec m) (b : BitVec n)

theorem slice_append_high (k l : Nat) : (a ++ b).extractLsb' (n + k) l = a.extractLsb' k l := by
  ext i hi
  have h1 : ¬ n + k + i < n := by omega
  have h2 : n + k + i - n = k + i := by omega
  simp [BitVec.getLsbD_append, h1, h2]

theorem slice_append_low (k l : Nat) (h : k + l ≤ n) : (a ++ b).extractLsb' k l = b.extractLsb' k l := by
  ext i hi
  have h1 : k + i < n := by omega
  simp [BitVec.getLsbD_append, h1]

theorem slice_all : b.extractLsb' 0 n = b := by ext i hi; simp [← BitVec.getLsbD_eq_getElem]

end Slices

variable (op a : BitVec 4) (x y : Idx) (kk : Byte) (nnn : Addr)

@[simp] theorem nibble_toFin : (nibble x).toFin = x := rfl

/-! ### Format NNN -/

@[simp] theorem fieldOp_nnn : fieldOp (op ++ nnn) = op :=
  (slice_append_high op nnn 0 4).trans (slice_all op)
@[simp] theorem fieldNnn_nnn : fieldNnn (op ++ nnn) = nnn :=
  (slice_append_low op nnn 0 12 (by omega)).trans (slice_all nnn)

/-! ### Formats XKK and XSS -/

@[simp] theorem fieldOp_xkk : fieldOp (op ++ nibble x ++ kk) = op :=
  (slice_append_high (op ++ nibble x) kk 4 4).trans
    ((slice_append_high op (nibble x) 0 4).trans (slice_all op))
@[simp] theorem fieldX_xkk : fieldX (op ++ nibble x ++ kk) = x :=
  congrArg BitVec.toFin ((slice_append_high (op ++ nibble x) kk 0 4).trans
    ((slice_append_low op (nibble x) 0 4 (by omega)).trans (slice_all (nibble x))))
@[simp] theorem fieldKk_xkk : fieldKk (op ++ nibble x ++ kk) = kk :=
  (slice_append_low (op ++ nibble x) kk 0 8 (by omega)).trans (slice_all kk)

/-! ### Format XYN -/

@[simp] theorem fieldOp_xyn : fieldOp (op ++ nibble x ++ nibble y ++ a) = op :=
  (slice_append_high (op ++ nibble x ++ nibble y) a 8 4).trans
    ((slice_append_high (op ++ nibble x) (nibble y) 4 4).trans
      ((slice_append_high op (nibble x) 0 4).trans (slice_all op)))
@[simp] theorem fieldX_xyn : fieldX (op ++ nibble x ++ nibble y ++ a) = x :=
  congrArg BitVec.toFin ((slice_append_high (op ++ nibble x ++ nibble y) a 4 4).trans
    ((slice_append_high (op ++ nibble x) (nibble y) 0 4).trans
      ((slice_append_low op (nibble x) 0 4 (by omega)).trans (slice_all (nibble x)))))
@[simp] theorem fieldY_xyn : fieldY (op ++ nibble x ++ nibble y ++ a) = y :=
  congrArg BitVec.toFin ((slice_append_high (op ++ nibble x ++ nibble y) a 0 4).trans
    ((slice_append_low (op ++ nibble x) (nibble y) 0 4 (by omega)).trans (slice_all (nibble y))))
@[simp] theorem fieldN_xyn : fieldN (op ++ nibble x ++ nibble y ++ a) = a.toFin :=
  congrArg BitVec.toFin ((slice_append_low (op ++ nibble x ++ nibble y) a 0 4 (by omega)).trans (slice_all a))

/-! ### Masks of the opcode map (R56) -/

theorem and_ones (b : BitVec 4) : b &&& 0xF#4 = b := BitVec.and_allOnes (x := b)

theorem mask_nnn : (op ++ nnn) &&& 0xF000#16 = op ++ 0#12 := by
  have h : (op ++ nnn) &&& (0xF#4 ++ 0x000#12) = (op &&& 0xF#4) ++ (nnn &&& 0x000#12) := BitVec.and_append
  rw [and_ones, BitVec.and_zero] at h; exact h

theorem mask_high (b : BitVec 4) : (op ++ b) &&& (0xF#4 ++ 0x0#4) = op ++ 0#4 := by
  rw [BitVec.and_append, and_ones, BitVec.and_zero]

theorem mask_xkk : (op ++ nibble x ++ kk) &&& 0xF000#16 = op ++ 0#12 := by
  have h : (op ++ nibble x ++ kk) &&& (0xF#4 ++ 0x0#4 ++ 0x00#8) =
      ((op ++ nibble x) &&& (0xF#4 ++ 0x0#4)) ++ (kk &&& 0x00#8) := BitVec.and_append
  rw [mask_high, BitVec.and_zero] at h
  exact h.trans ((by decide : ∀ b : BitVec 4, b ++ 0#4 ++ 0#8 = b ++ 0#12) op)

theorem mask_xss : (op ++ nibble x ++ kk) &&& 0xF0FF#16 = op ++ 0#4 ++ kk := by
  have h : (op ++ nibble x ++ kk) &&& (0xF#4 ++ 0x0#4 ++ 0xFF#8) =
      ((op ++ nibble x) &&& (0xF#4 ++ 0x0#4)) ++ (kk &&& 0xFF#8) := BitVec.and_append
  have e : kk &&& 0xFF#8 = kk := BitVec.and_allOnes (x := kk)
  rw [mask_high, e] at h; exact h

theorem mask_xyn : (op ++ nibble x ++ nibble y ++ a) &&& 0xF00F#16 = op ++ 0#4 ++ 0#4 ++ a := by
  have h : (op ++ nibble x ++ nibble y ++ a) &&& (0xF#4 ++ 0x0#4 ++ 0x0#4 ++ 0xF#4) =
      ((op ++ nibble x ++ nibble y) &&& (0xF#4 ++ 0x0#4 ++ 0x0#4)) ++ (a &&& 0xF#4) := BitVec.and_append
  have h' : (op ++ nibble x ++ nibble y) &&& (0xF#4 ++ 0x0#4 ++ 0x0#4) =
      ((op ++ nibble x) &&& (0xF#4 ++ 0x0#4)) ++ (nibble y &&& 0x0#4) := BitVec.and_append
  rw [h', mask_high, and_ones, BitVec.and_zero] at h; exact h

/-! ### A word is its digits (R51, R52) -/

theorem toNat_digit {m : Nat} (b : BitVec m) (d : BitVec 4) : (b ++ d).toNat = b.toNat * 16 + d.toNat := by
  rw [BitVec.toNat_append, ← Nat.shiftLeft_add_eq_or_of_lt d.isLt, Nat.shiftLeft_eq]

theorem kk_digits : fieldKk (op ++ nibble x ++ nibble y ++ a) = nibble y ++ a := by
  have h := slice_append_low (op ++ nibble x) (nibble y ++ a) 0 8 (by omega)
  have e : op ++ nibble x ++ nibble y ++ a = op ++ nibble x ++ (nibble y ++ a) := BitVec.append_assoc
  unfold fieldKk; rw [e]; exact h.trans (slice_all _)

theorem word_eq_digits (w : Word) :
    w = fieldOp w ++ nibble (fieldX w) ++ nibble (fieldY w) ++ nibble (fieldN w) := by
  apply BitVec.eq_of_toNat_eq
  have h : (fieldOp w ++ nibble (fieldX w) ++ nibble (fieldY w) ++ nibble (fieldN w)).toNat =
      (((w.toNat / 4096 % 16) * 16 + w.toNat / 256 % 16) * 16 + w.toNat / 16 % 16) * 16 + w.toNat % 16 := by
    rw [toNat_digit, toNat_digit, toNat_digit]
    simp only [fieldOp, fieldX, fieldY, fieldN, nibble, BitVec.ofFin_toFin, BitVec.extractLsb'_toNat,
      Nat.shiftRight_eq_div_pow, Nat.reducePow, Nat.div_one]
  have := w.isLt
  exact (by omega : w.toNat = _).trans h.symm

theorem word_eq_xkk (w : Word) : w = fieldOp w ++ nibble (fieldX w) ++ fieldKk w := by
  have h := word_eq_digits w
  have e : fieldKk w = nibble (fieldY w) ++ nibble (fieldN w) := by
    conv_lhs => rw [h]
    exact kk_digits _ _ _ _
  rw [e]; exact h.trans BitVec.append_assoc

theorem word_eq_nnn (w : Word) : w = fieldOp w ++ fieldNnn w := by
  have h := word_eq_xkk w
  have h' : w = fieldOp w ++ (nibble (fieldX w) ++ fieldKk w) := h.trans BitVec.append_assoc
  have e : fieldNnn w = nibble (fieldX w) ++ fieldKk w := by
    conv_lhs => rw [h']
    exact fieldNnn_nnn _ _
  rw [e]; exact h'

/-! ### Words and bytes (R35, R51) -/

theorem wordOfBytes_toNat (hi lo : Byte) : (wordOfBytes hi lo).toNat = hi.toNat * 256 + lo.toNat := by
  have h : (wordOfBytes hi lo).toNat = hi.toNat <<< 8 ||| lo.toNat := BitVec.toNat_append hi lo
  rw [h, ← Nat.shiftLeft_add_eq_or_of_lt lo.isLt, Nat.shiftLeft_eq]

/-- The two bytes of a word make the word again. -/
theorem wordOfBytes_bytesOfWord (w : Word) :
    wordOfBytes (w.extractLsb' 8 8) (w.extractLsb' 0 8) = w := by
  apply BitVec.eq_of_toNat_eq
  rw [wordOfBytes_toNat]
  simp only [BitVec.extractLsb'_toNat, Nat.shiftRight_eq_div_pow]
  omega

end Sys2Proof
end

