-- ==== Sys2Proof/Laws/Draw.lean ====
section
/-! SUPPORT. The drawing loops as one list of flipped cells without repeats (R116 (c)), and what flipping
them does to the picture and to the collision flag. -/

namespace Sys2Proof.Machine

/-- The cells of one sprite row, left to right. -/
def rowCells (vx vy : Byte) (i : Nat) (row : Byte) : List Nat :=
  ((List.range 8).filter (spriteBit row)).map (spriteCell vx vy i)

/-- The cells of the sprite rows `i`, `i + 1`, … -/
def spriteCells (vx vy : Byte) (i : Nat) : List Byte → List Nat
  | [] => []
  | row :: rows => rowCells vx vy i row ++ spriteCells vx vy (i + 1) rows

theorem drawRow_eq_foldl (vx vy : Byte) (i : Nat) (row : Byte) (c : Canvas) :
    drawRow vx vy i row c = (rowCells vx vy i row).foldl flipCell c := by
  rw [rowCells, List.foldl_map, List.foldl_filter]; rfl

theorem drawRows_eq_foldl (vx vy : Byte) (i : Nat) (rows : List Byte) (c : Canvas) :
    drawRows vx vy i rows c = (spriteCells vx vy i rows).foldl flipCell c := by
  induction rows generalizing i c with
  | nil => rfl
  | cons row rows ih => rw [drawRows, ih, spriteCells, List.foldl_append, drawRow_eq_foldl]

theorem spriteCell_lt (vx vy : Byte) (i j : Nat) : spriteCell vx vy i j < 2048 := by
  simp only [spriteCell, Config.fbHeight, Config.fbWidth]; omega

/-- The cells under set bits, by row and column (R116). -/
theorem mem_spriteCells (vx vy : Byte) (i k : Nat) (rows : List Byte) :
    k ∈ spriteCells vx vy i rows ↔
      ∃ i', ∃ h : i' < rows.length, ∃ j < 8, spriteBit rows[i'] j = true ∧ spriteCell vx vy (i + i') j = k := by
  induction rows generalizing i with
  | nil => simp [spriteCells]
  | cons row rows ih =>
    rw [spriteCells, List.mem_append, ih]
    constructor
    · rintro (h | ⟨i', h, j, hj, hb, hk⟩)
      · simp only [rowCells, List.mem_map, List.mem_filter, List.mem_range] at h
        obtain ⟨j, ⟨hj, hb⟩, hk⟩ := h
        exact ⟨0, by simp, j, hj, by simpa using hb, by simpa using hk⟩
      · exact ⟨i' + 1, by simpa using h, j, hj, by simpa using hb, by rw [← hk]; congr 1; omega⟩
    · rintro ⟨i', h, j, hj, hb, hk⟩
      cases i' with
      | zero =>
        exact .inl (by
          simp only [rowCells, List.mem_map, List.mem_filter, List.mem_range]
          exact ⟨j, ⟨hj, by simpa using hb⟩, by simpa using hk⟩)
      | succ i' =>
        exact .inr ⟨i', by simpa using h, j, hj, by simpa using hb, by rw [← hk]; congr 1; omega⟩

theorem spriteCell_inj {vx vy : Byte} {i i' j j' : Nat} (hi : i < i' + 32) (hi' : i' < i + 32)
    (hj : j < 8) (hj' : j' < 8) (h : spriteCell vx vy i j = spriteCell vx vy i' j') : i = i' ∧ j = j' := by
  simp only [spriteCell, Config.fbHeight, Config.fbWidth] at h
  omega

/-- No cell is touched twice by one draw (R116 (c)). -/
theorem nodup_spriteCells (vx vy : Byte) (i : Nat) (rows : List Byte) (h : rows.length ≤ 32) :
    (spriteCells vx vy i rows).Nodup := by
  induction rows generalizing i with
  | nil => simp [spriteCells]
  | cons row rows ih =>
    simp only [List.length_cons] at h
    rw [spriteCells, List.nodup_append]
    refine ⟨?_, ih (i + 1) (by omega), ?_⟩
    · refine List.Nodup.map_on ?_ (List.nodup_range.filter _)
      intro j hj j' hj' e
      have h1 := List.mem_range.mp (List.mem_filter.mp hj).1
      have h2 := List.mem_range.mp (List.mem_filter.mp hj').1
      exact (spriteCell_inj (by omega) (by omega) h1 h2 e).2
    · intro k hk k' hk' e
      subst e
      simp only [rowCells, List.mem_map, List.mem_filter, List.mem_range] at hk
      obtain ⟨j, ⟨hj, -⟩, hk⟩ := hk
      obtain ⟨i', hi', j', hj', -, hk'⟩ := (mem_spriteCells _ _ _ _ _).mp hk'
      have := (spriteCell_inj (by omega) (by omega) hj hj' (hk.trans hk'.symm)).1
      omega

theorem flipCell_fb (c : Canvas) (k j : Nat) :
    (flipCell c k).fb.getLsbD j = (c.fb.getLsbD j ^^ (decide (j = k) && decide (k < 2048))) := by
  simp only [flipCell, BitVec.getLsbD_xor, BitVec.getLsbD_twoPow]
  by_cases h : j = k
  · subst h; simp
  · have : ¬ k = j := fun e => h e.symm
    simp [h, this]

theorem flipCell_hit (c : Canvas) (k : Nat) (h : k < 2048) :
    (flipCell c k).hit = (c.hit || c.fb.getLsbD k) := by
  have := flipCell_fb c k k
  simp only [flipCell] at this ⊢
  rw [this]; simp [h]

/-- Flipping distinct cells: each is inverted, no other changes, and there is a hit exactly when one of
them was lit (R117). -/
theorem foldl_flipCell (l : List Nat) (c : Canvas) (hn : l.Nodup) (hl : ∀ k ∈ l, k < 2048) :
    (∀ j, (l.foldl flipCell c).fb.getLsbD j = (c.fb.getLsbD j ^^ decide (j ∈ l))) ∧
    (l.foldl flipCell c).hit = (c.hit || l.any c.fb.getLsbD) := by
  induction l generalizing c with
  | nil => simp
  | cons k l ih =>
    have hk : k < 2048 := hl k (by simp)
    obtain ⟨hkl, hnl⟩ := List.nodup_cons.mp hn
    obtain ⟨h1, h2⟩ := ih (flipCell c k) hnl fun j hj => hl j (by simp [hj])
    constructor
    · intro j
      rw [List.foldl_cons, h1, flipCell_fb]
      by_cases hj : j = k
      · subst hj; simp [hkl, hk]
      · simp [hj]
    · rw [List.foldl_cons, h2, flipCell_hit c k hk, List.any_cons, Bool.or_assoc]
      congr 2
      rw [Bool.eq_iff_iff, List.any_eq_true, List.any_eq_true]
      refine exists_congr fun j => and_congr_right fun hj => ?_
      have : j ≠ k := fun e => hkl (e ▸ hj)
      rw [flipCell_fb]; simp [this]

/-- What drawing at most 32 rows does to every cell and to the collision flag (R115 to R117). -/
theorem drawRows_spec (vx vy : Byte) (rows : List Byte) (c : Canvas) (h : rows.length ≤ 32) :
    (∀ k, (drawRows vx vy 0 rows c).fb.getLsbD k =
      (c.fb.getLsbD k ^^ decide (k ∈ spriteCells vx vy 0 rows))) ∧
    (drawRows vx vy 0 rows c).hit = (c.hit || (spriteCells vx vy 0 rows).any c.fb.getLsbD) := by
  rw [drawRows_eq_foldl]
  refine foldl_flipCell _ c (nodup_spriteCells vx vy 0 rows h) fun k hk => ?_
  obtain ⟨i', -, j, -, -, rfl⟩ := (mem_spriteCells _ _ _ _ _).mp hk
  exact spriteCell_lt _ _ _ _

end Sys2Proof.Machine
end

