-- ==== Sys2Proof/Laws/Memory.lean ====
section
/-! SUPPORT. Memory: what a read sees after a write, and the canonical form every operation keeps. -/

namespace Sys2Proof.Machine
namespace Memory

variable {font : Font}

/-! ### Reads after writes (R34) -/

theorem read_erase_self (m : Memory) (a : Nat) : read font (erase m a) a = resetByte font a := by
  induction m with
  | nil => rfl
  | cons c rest ih =>
    obtain ⟨k, b⟩ := c
    by_cases h : k = a
    · subst h; simpa [erase] using ih
    · simpa [erase, read, h] using ih

theorem read_erase_of_ne (m : Memory) {a a' : Nat} (h : a' ≠ a) : read font (erase m a) a' = read font m a' := by
  induction m with
  | nil => rfl
  | cons c rest ih =>
    obtain ⟨k, b⟩ := c
    by_cases hk : k = a
    · subst hk
      have : k ≠ a' := fun e => h e.symm
      simpa [erase, read, this] using ih
    · by_cases hk' : k = a'
      · subst hk'; simp [erase, read, hk]
      · simpa [erase, read, hk, hk'] using ih

theorem read_insert_of_ne (m : Memory) {a a' : Nat} (v : Byte) (h : a' ≠ a) :
    read font (insert m a v) a' = read font m a' := by
  have h' : a ≠ a' := fun e => h e.symm
  induction m with
  | nil => simp [insert, read, h']
  | cons c rest ih =>
    obtain ⟨k, b⟩ := c
    by_cases hk : a < k
    · simp [insert, read, hk, h']
    · simp [insert, read, hk, ih]

theorem read_insert_self (m : Memory) (a : Nat) (v : Byte) (h : ∀ c ∈ m, c.1 ≠ a) :
    read font (insert m a v) a = v := by
  induction m with
  | nil => simp [insert, read]
  | cons c rest ih =>
    obtain ⟨k, b⟩ := c
    have hne : k ≠ a := h (k, b) (by simp)
    by_cases hk : a < k
    · simp [insert, read, hk]
    · simp only [insert, if_neg hk, read, if_neg hne]
      exact ih fun c hc => h c (by simp [hc])

theorem erase_ne (m : Memory) (a : Nat) : ∀ c ∈ erase m a, c.1 ≠ a := by
  intro c hc
  simpa using (List.mem_filter.mp hc).2

@[simp] theorem read_write_self (m : Memory) (a : Nat) (v : Byte) : read font (write font m a v) a = v := by
  unfold write
  split
  · rename_i h; rw [read_erase_self, h]
  · exact read_insert_self _ _ _ (erase_ne m a)

theorem read_write_of_ne (m : Memory) {a a' : Nat} (v : Byte) (h : a' ≠ a) :
    read font (write font m a v) a' = read font m a' := by
  unfold write
  split
  · exact read_erase_of_ne m h
  · rw [read_insert_of_ne _ _ h, read_erase_of_ne m h]

/-- What a byte reads as after a run of bytes is stored at `a`. -/
theorem read_writeBytes (bs : List Byte) (m : Memory) (a a' : Nat) :
    read font (writeBytes font m a bs) a' =
      if h : a ≤ a' ∧ a' < a + bs.length then bs[a' - a]'(by omega) else read font m a' := by
  induction bs generalizing m a with
  | nil => simp [writeBytes]
  | cons b bs ih =>
    rw [writeBytes, ih]
    by_cases h1 : a' = a
    · subst h1; simp
    · by_cases h2 : a ≤ a' ∧ a' < a + (b :: bs).length
      · have h3 : a + 1 ≤ a' ∧ a' < a + 1 + bs.length := by
          simp only [List.length_cons] at h2; omega
        rw [dif_pos h3, dif_pos h2]
        have h4 : a' - a = a' - (a + 1) + 1 := by omega
        simp [h4]
      · have h3 : ¬ (a + 1 ≤ a' ∧ a' < a + 1 + bs.length) := by
          simp only [List.length_cons] at h2; omega
        rw [dif_neg h3, dif_neg h2, read_write_of_ne _ _ h1]

@[simp] theorem length_readBytes (m : Memory) (a n : Nat) : (readBytes font m a n).length = n := by
  induction n generalizing a with
  | zero => rfl
  | succ n ih => simp [readBytes, ih]

theorem getElem_readBytes (m : Memory) (a n k : Nat) (h : k < (readBytes font m a n).length) :
    (readBytes font m a n)[k] = read font m (a + k) := by
  induction n generalizing a k with
  | zero => simp [readBytes] at h
  | succ n ih =>
    cases k with
    | zero => simp [readBytes]
    | succ k =>
      simp only [readBytes, List.getElem_cons_succ, ih]
      congr 1; omega

/-! ### The canonical form -/

theorem wf_cons {c : Host.Cell} {m : Memory} :
    wf font (c :: m) = true ↔ cellOk font c = true ∧ (∀ d ∈ m.head?, c.1 < d.1) ∧ wf font m = true := by
  cases m with
  | nil => simp [wf]
  | cons d rest => simp [wf, and_assoc]

/-- The canonical form, said of all cells at once. -/
theorem wf_iff {m : Memory} :
    wf font m = true ↔ (∀ c ∈ m, cellOk font c = true) ∧ m.Pairwise (fun c d => c.1 < d.1) := by
  induction m with
  | nil => simp [wf]
  | cons c rest ih =>
    rw [wf_cons, ih, List.pairwise_cons]
    constructor
    · rintro ⟨h1, h2, h3, h4⟩
      refine ⟨by simpa using ⟨h1, fun a b hc => h3 (a, b) hc⟩, ?_, h4⟩
      cases rest with
      | nil => simp
      | cons d rest =>
        have hcd : c.1 < d.1 := h2 d (by simp)
        intro e he
        rcases List.mem_cons.mp he with rfl | he
        · exact hcd
        · exact Nat.lt_trans hcd ((List.pairwise_cons.mp h4).1 e he)
    · rintro ⟨h1, h2, h3⟩
      refine ⟨h1 c (by simp), fun d hd => h2 d (List.mem_of_mem_head? hd), fun d hd => h1 d (by simp [hd]), h3⟩

theorem wf_erase {m : Memory} (a : Nat) (h : wf font m = true) : wf font (erase m a) = true := by
  rw [wf_iff] at h ⊢
  exact ⟨fun c hc => h.1 c (List.mem_filter.mp hc).1, h.2.sublist List.filter_sublist⟩

theorem mem_insert {m : Memory} {a : Nat} {v : Byte} {c : Host.Cell} :
    c ∈ insert m a v ↔ c = (a, v) ∨ c ∈ m := by
  induction m with
  | nil => simp [insert]
  | cons d rest ih =>
    obtain ⟨k, b⟩ := d
    by_cases hk : a < k
    · simp [insert, hk]
    · simp only [insert, if_neg hk, List.mem_cons, ih]; tauto

theorem wf_insert {m : Memory} {a : Nat} {v : Byte} (ha : a < Config.memSize) (hv : v ≠ resetByte font a)
    (hne : ∀ c ∈ m, c.1 ≠ a) (h : wf font m = true) : wf font (insert m a v) = true := by
  rw [wf_iff] at h ⊢
  refine ⟨fun c hc => ?_, ?_⟩
  · rcases mem_insert.mp hc with rfl | hc
    · simp [cellOk, ha, hv]
    · exact h.1 c hc
  · have hs := h.2
    clear h
    induction m with
    | nil => simp [insert]
    | cons d rest ih =>
      obtain ⟨k, b⟩ := d
      have hd := List.pairwise_cons.mp hs
      have hka : k ≠ a := hne (k, b) (by simp)
      by_cases hk : a < k
      · simp only [insert, if_pos hk, List.pairwise_cons]
        refine ⟨fun e he => ?_, hd.1, hd.2⟩
        rcases List.mem_cons.mp he with rfl | he
        · exact hk
        · exact Nat.lt_trans hk (hd.1 e he)
      · simp only [insert, if_neg hk, List.pairwise_cons]
        refine ⟨fun e he => ?_, ih (fun c hc => hne c (by simp [hc])) hd.2⟩
        rcases mem_insert.mp he with rfl | he
        · simp only; omega
        · exact hd.1 e he

/-- Writing a byte inside memory keeps the canonical form. -/
theorem wf_write {m : Memory} {a : Nat} (v : Byte) (ha : a < Config.memSize) (h : wf font m = true) :
    wf font (write font m a v) = true := by
  unfold write
  split
  · exact wf_erase a h
  · rename_i hv; exact wf_insert ha hv (erase_ne m a) (wf_erase a h)

/-- Storing bytes inside memory keeps the canonical form. -/
theorem wf_writeBytes {m : Memory} {a : Nat} (bs : List Byte) (ha : a + bs.length ≤ Config.memSize)
    (h : wf font m = true) : wf font (writeBytes font m a bs) = true := by
  induction bs generalizing m a with
  | nil => exact h
  | cons b bs ih =>
    simp only [List.length_cons] at ha
    exact ih (by omega) (wf_write b (by omega) h)

theorem wf_nil : wf font [] = true := rfl

/-- Two canonical memories that read alike are the same list. -/
theorem eq_of_read_eq {m m' : Memory} (h : wf font m = true) (h' : wf font m' = true)
    (e : ∀ a, read font m a = read font m' a) : m = m' := by
  have key : ∀ {m : Memory}, wf font m = true → ∀ c : Host.Cell, c ∈ m ↔ (read font m c.1 = c.2 ∧ cellOk font c = true) := by
    intro m
    induction m with
    | nil =>
      rintro - ⟨a, v⟩
      simp only [List.not_mem_nil, read, cellOk, false_iff, not_and]
      rintro rfl; simp
    | cons d rest ih =>
      intro hw c
      obtain ⟨k, b⟩ := d
      have hp := wf_iff.mp hw
      have hd := List.pairwise_cons.mp hp.2
      have hr := ih (wf_cons.mp hw).2.2 c
      obtain ⟨a, v⟩ := c
      by_cases hk : k = a
      · subst hk
        simp only [List.mem_cons, read, if_pos, Prod.mk.injEq, true_and]
        constructor
        · rintro (rfl | hc)
          · exact ⟨rfl, hp.1 _ (by simp)⟩
          · exact absurd (hd.1 _ hc) (by simp)
        · rintro ⟨rfl, -⟩; exact .inl rfl
      · have : ¬ ((a, v) = (k, b)) := fun e => hk (Prod.mk.inj e).1.symm
        simpa only [List.mem_cons, this, false_or, read, if_neg hk] using hr
  have sub : ∀ c, c ∈ m ↔ c ∈ m' := fun c => by rw [key h, key h', e]
  have p := (wf_iff.mp h).2
  have p' := (wf_iff.mp h').2
  have nd : ∀ {l : Memory}, l.Pairwise (fun c d => c.1 < d.1) → l.Nodup := fun hl =>
    hl.imp fun {c d} hcd e => by subst e; exact absurd hcd (Nat.lt_irrefl _)
  exact ((List.perm_ext_iff_of_nodup (nd p) (nd p')).mpr sub).eq_of_pairwise
    (fun c d _ _ h1 h2 => absurd h1 (Nat.not_lt_of_gt h2)) p p'

end Memory

/-! ### The machine's memory -/

theorem State.byte_def (s : State) (a : Nat) : s.byte a = Memory.read s.params.font s.mem a := rfl

/-- What a byte of the machine reads as after bytes are stored (R34). -/
theorem State.byte_store (s : State) (a a' : Nat) (bs : List Byte) :
    (s.store a bs).byte a' =
      if h : a ≤ a' ∧ a' < a + bs.length then bs[a' - a]'(by omega) else s.byte a' :=
  Memory.read_writeBytes bs s.mem a a'

theorem State.byte_store_of_outside (s : State) (a a' : Nat) (bs : List Byte) (h : a' < a ∨ a + bs.length ≤ a') :
    (s.store a bs).byte a' = s.byte a' := by
  rw [s.byte_store, dif_neg (by omega)]

theorem State.byte_store_inside (s : State) (a k : Nat) (bs : List Byte) (h : k < bs.length) :
    (s.store a bs).byte (a + k) = bs[k] := by
  rw [s.byte_store, dif_pos (by omega)]; simp

@[simp] theorem State.length_bytes (s : State) (a n : Nat) : (s.bytes a n).length = n :=
  Memory.length_readBytes s.mem a n

theorem State.getElem_bytes (s : State) (a n k : Nat) (h : k < (s.bytes a n).length) :
    (s.bytes a n)[k] = s.byte (a + k) :=
  Memory.getElem_readBytes s.mem a n k h

/-- Bytes stored inside memory keep the canonical form. -/
theorem State.wf_store (s : State) (a : Nat) (bs : List Byte) (ha : a + bs.length ≤ Config.memSize)
    (h : Memory.wf s.params.font s.mem = true) :
    Memory.wf (s.store a bs).params.font (s.store a bs).mem = true :=
  Memory.wf_writeBytes bs ha h

end Sys2Proof.Machine
end

