-- ==== Sys2Proof/Laws/State.lean ====
section
/-! SUPPORT. The fields of an updated state, one lemma a field an update, each true by `rfl`, and the
accessors of the fields an update leaves alone. -/

namespace Sys2Proof.Machine.State

variable (s : State)

/-! ### setMem -/
@[simp] theorem setMem_params (m : Memory) : (s.setMem m).params = s.params := rfl
@[simp] theorem setMem_mem (m : Memory) : (s.setMem m).mem = m := rfl
@[simp] theorem setMem_regs (m : Memory) : (s.setMem m).regs = s.regs := rfl
@[simp] theorem setMem_index (m : Memory) : (s.setMem m).index = s.index := rfl
@[simp] theorem setMem_pc (m : Memory) : (s.setMem m).pc = s.pc := rfl
@[simp] theorem setMem_stack (m : Memory) : (s.setMem m).stack = s.stack := rfl
@[simp] theorem setMem_sp (m : Memory) : (s.setMem m).sp = s.sp := rfl
@[simp] theorem setMem_fb (m : Memory) : (s.setMem m).fb = s.fb := rfl
@[simp] theorem setMem_dt (m : Memory) : (s.setMem m).dt = s.dt := rfl
@[simp] theorem setMem_st (m : Memory) : (s.setMem m).st = s.st := rfl
@[simp] theorem setMem_keys (m : Memory) : (s.setMem m).keys = s.keys := rfl
@[simp] theorem setMem_opc (m : Memory) : (s.setMem m).opc = s.opc := rfl
@[simp] theorem setMem_randInput (m : Memory) : (s.setMem m).randInput = s.randInput := rfl
@[simp] theorem setMem_draws (m : Memory) : (s.setMem m).draws = s.draws := rfl
@[simp] theorem setMem_reg (m : Memory) (i : Idx) : (s.setMem m).reg i = s.reg i := rfl
@[simp] theorem setMem_slot (m : Memory) (k : Nat) : (s.setMem m).slot k = s.slot k := rfl
@[simp] theorem setMem_cell (m : Memory) (k : Nat) : (s.setMem m).cell k = s.cell k := rfl
@[simp] theorem setMem_key (m : Memory) (k : Idx) : (s.setMem m).key k = s.key k := rfl

/-! ### store -/
@[simp] theorem store_params (a : Nat) (bs : List Byte) : (s.store a bs).params = s.params := rfl
@[simp] theorem store_mem (a : Nat) (bs : List Byte) : (s.store a bs).mem = Memory.writeBytes s.params.font s.mem a bs := rfl
@[simp] theorem store_regs (a : Nat) (bs : List Byte) : (s.store a bs).regs = s.regs := rfl
@[simp] theorem store_index (a : Nat) (bs : List Byte) : (s.store a bs).index = s.index := rfl
@[simp] theorem store_pc (a : Nat) (bs : List Byte) : (s.store a bs).pc = s.pc := rfl
@[simp] theorem store_stack (a : Nat) (bs : List Byte) : (s.store a bs).stack = s.stack := rfl
@[simp] theorem store_sp (a : Nat) (bs : List Byte) : (s.store a bs).sp = s.sp := rfl
@[simp] theorem store_fb (a : Nat) (bs : List Byte) : (s.store a bs).fb = s.fb := rfl
@[simp] theorem store_dt (a : Nat) (bs : List Byte) : (s.store a bs).dt = s.dt := rfl
@[simp] theorem store_st (a : Nat) (bs : List Byte) : (s.store a bs).st = s.st := rfl
@[simp] theorem store_keys (a : Nat) (bs : List Byte) : (s.store a bs).keys = s.keys := rfl
@[simp] theorem store_opc (a : Nat) (bs : List Byte) : (s.store a bs).opc = s.opc := rfl
@[simp] theorem store_randInput (a : Nat) (bs : List Byte) : (s.store a bs).randInput = s.randInput := rfl
@[simp] theorem store_draws (a : Nat) (bs : List Byte) : (s.store a bs).draws = s.draws := rfl
@[simp] theorem store_reg (a : Nat) (bs : List Byte) (i : Idx) : (s.store a bs).reg i = s.reg i := rfl
@[simp] theorem store_slot (a : Nat) (bs : List Byte) (k : Nat) : (s.store a bs).slot k = s.slot k := rfl
@[simp] theorem store_cell (a : Nat) (bs : List Byte) (k : Nat) : (s.store a bs).cell k = s.cell k := rfl
@[simp] theorem store_key (a : Nat) (bs : List Byte) (k : Idx) : (s.store a bs).key k = s.key k := rfl

/-! ### setReg -/
@[simp] theorem setReg_params (x : Idx) (v : Byte) : (s.setReg x v).params = s.params := rfl
@[simp] theorem setReg_mem (x : Idx) (v : Byte) : (s.setReg x v).mem = s.mem := rfl
@[simp] theorem setReg_regs (x : Idx) (v : Byte) : (s.setReg x v).regs = s.regs.set x v := rfl
@[simp] theorem setReg_index (x : Idx) (v : Byte) : (s.setReg x v).index = s.index := rfl
@[simp] theorem setReg_pc (x : Idx) (v : Byte) : (s.setReg x v).pc = s.pc := rfl
@[simp] theorem setReg_stack (x : Idx) (v : Byte) : (s.setReg x v).stack = s.stack := rfl
@[simp] theorem setReg_sp (x : Idx) (v : Byte) : (s.setReg x v).sp = s.sp := rfl
@[simp] theorem setReg_fb (x : Idx) (v : Byte) : (s.setReg x v).fb = s.fb := rfl
@[simp] theorem setReg_dt (x : Idx) (v : Byte) : (s.setReg x v).dt = s.dt := rfl
@[simp] theorem setReg_st (x : Idx) (v : Byte) : (s.setReg x v).st = s.st := rfl
@[simp] theorem setReg_keys (x : Idx) (v : Byte) : (s.setReg x v).keys = s.keys := rfl
@[simp] theorem setReg_opc (x : Idx) (v : Byte) : (s.setReg x v).opc = s.opc := rfl
@[simp] theorem setReg_randInput (x : Idx) (v : Byte) : (s.setReg x v).randInput = s.randInput := rfl
@[simp] theorem setReg_draws (x : Idx) (v : Byte) : (s.setReg x v).draws = s.draws := rfl
@[simp] theorem setReg_byte (x : Idx) (v : Byte) (a : Nat) : (s.setReg x v).byte a = s.byte a := rfl
@[simp] theorem setReg_slot (x : Idx) (v : Byte) (k : Nat) : (s.setReg x v).slot k = s.slot k := rfl
@[simp] theorem setReg_cell (x : Idx) (v : Byte) (k : Nat) : (s.setReg x v).cell k = s.cell k := rfl
@[simp] theorem setReg_key (x : Idx) (v : Byte) (k : Idx) : (s.setReg x v).key k = s.key k := rfl

/-! ### setFlag -/
@[simp] theorem setFlag_params (f : Bool) : (s.setFlag f).params = s.params := rfl
@[simp] theorem setFlag_mem (f : Bool) : (s.setFlag f).mem = s.mem := rfl
@[simp] theorem setFlag_regs (f : Bool) : (s.setFlag f).regs = s.regs.set Config.flagReg (if f then 1#8 else 0#8) := rfl
@[simp] theorem setFlag_index (f : Bool) : (s.setFlag f).index = s.index := rfl
@[simp] theorem setFlag_pc (f : Bool) : (s.setFlag f).pc = s.pc := rfl
@[simp] theorem setFlag_stack (f : Bool) : (s.setFlag f).stack = s.stack := rfl
@[simp] theorem setFlag_sp (f : Bool) : (s.setFlag f).sp = s.sp := rfl
@[simp] theorem setFlag_fb (f : Bool) : (s.setFlag f).fb = s.fb := rfl
@[simp] theorem setFlag_dt (f : Bool) : (s.setFlag f).dt = s.dt := rfl
@[simp] theorem setFlag_st (f : Bool) : (s.setFlag f).st = s.st := rfl
@[simp] theorem setFlag_keys (f : Bool) : (s.setFlag f).keys = s.keys := rfl
@[simp] theorem setFlag_opc (f : Bool) : (s.setFlag f).opc = s.opc := rfl
@[simp] theorem setFlag_randInput (f : Bool) : (s.setFlag f).randInput = s.randInput := rfl
@[simp] theorem setFlag_draws (f : Bool) : (s.setFlag f).draws = s.draws := rfl
@[simp] theorem setFlag_byte (f : Bool) (a : Nat) : (s.setFlag f).byte a = s.byte a := rfl
@[simp] theorem setFlag_slot (f : Bool) (k : Nat) : (s.setFlag f).slot k = s.slot k := rfl
@[simp] theorem setFlag_cell (f : Bool) (k : Nat) : (s.setFlag f).cell k = s.cell k := rfl
@[simp] theorem setFlag_key (f : Bool) (k : Idx) : (s.setFlag f).key k = s.key k := rfl

/-! ### setRegs -/
@[simp] theorem setRegs_params (bs : List Byte) : (s.setRegs bs).params = s.params := rfl
@[simp] theorem setRegs_mem (bs : List Byte) : (s.setRegs bs).mem = s.mem := rfl
@[simp] theorem setRegs_regs (bs : List Byte) : (s.setRegs bs).regs = loadRegFile s.regs 0 bs := rfl
@[simp] theorem setRegs_index (bs : List Byte) : (s.setRegs bs).index = s.index := rfl
@[simp] theorem setRegs_pc (bs : List Byte) : (s.setRegs bs).pc = s.pc := rfl
@[simp] theorem setRegs_stack (bs : List Byte) : (s.setRegs bs).stack = s.stack := rfl
@[simp] theorem setRegs_sp (bs : List Byte) : (s.setRegs bs).sp = s.sp := rfl
@[simp] theorem setRegs_fb (bs : List Byte) : (s.setRegs bs).fb = s.fb := rfl
@[simp] theorem setRegs_dt (bs : List Byte) : (s.setRegs bs).dt = s.dt := rfl
@[simp] theorem setRegs_st (bs : List Byte) : (s.setRegs bs).st = s.st := rfl
@[simp] theorem setRegs_keys (bs : List Byte) : (s.setRegs bs).keys = s.keys := rfl
@[simp] theorem setRegs_opc (bs : List Byte) : (s.setRegs bs).opc = s.opc := rfl
@[simp] theorem setRegs_randInput (bs : List Byte) : (s.setRegs bs).randInput = s.randInput := rfl
@[simp] theorem setRegs_draws (bs : List Byte) : (s.setRegs bs).draws = s.draws := rfl
@[simp] theorem setRegs_byte (bs : List Byte) (a : Nat) : (s.setRegs bs).byte a = s.byte a := rfl
@[simp] theorem setRegs_slot (bs : List Byte) (k : Nat) : (s.setRegs bs).slot k = s.slot k := rfl
@[simp] theorem setRegs_cell (bs : List Byte) (k : Nat) : (s.setRegs bs).cell k = s.cell k := rfl
@[simp] theorem setRegs_key (bs : List Byte) (k : Idx) : (s.setRegs bs).key k = s.key k := rfl

/-! ### setIndex -/
@[simp] theorem setIndex_params (v : Word) : (s.setIndex v).params = s.params := rfl
@[simp] theorem setIndex_mem (v : Word) : (s.setIndex v).mem = s.mem := rfl
@[simp] theorem setIndex_regs (v : Word) : (s.setIndex v).regs = s.regs := rfl
@[simp] theorem setIndex_index (v : Word) : (s.setIndex v).index = v := rfl
@[simp] theorem setIndex_pc (v : Word) : (s.setIndex v).pc = s.pc := rfl
@[simp] theorem setIndex_stack (v : Word) : (s.setIndex v).stack = s.stack := rfl
@[simp] theorem setIndex_sp (v : Word) : (s.setIndex v).sp = s.sp := rfl
@[simp] theorem setIndex_fb (v : Word) : (s.setIndex v).fb = s.fb := rfl
@[simp] theorem setIndex_dt (v : Word) : (s.setIndex v).dt = s.dt := rfl
@[simp] theorem setIndex_st (v : Word) : (s.setIndex v).st = s.st := rfl
@[simp] theorem setIndex_keys (v : Word) : (s.setIndex v).keys = s.keys := rfl
@[simp] theorem setIndex_opc (v : Word) : (s.setIndex v).opc = s.opc := rfl
@[simp] theorem setIndex_randInput (v : Word) : (s.setIndex v).randInput = s.randInput := rfl
@[simp] theorem setIndex_draws (v : Word) : (s.setIndex v).draws = s.draws := rfl
@[simp] theorem setIndex_reg (v : Word) (i : Idx) : (s.setIndex v).reg i = s.reg i := rfl
@[simp] theorem setIndex_byte (v : Word) (a : Nat) : (s.setIndex v).byte a = s.byte a := rfl
@[simp] theorem setIndex_slot (v : Word) (k : Nat) : (s.setIndex v).slot k = s.slot k := rfl
@[simp] theorem setIndex_cell (v : Word) (k : Nat) : (s.setIndex v).cell k = s.cell k := rfl
@[simp] theorem setIndex_key (v : Word) (k : Idx) : (s.setIndex v).key k = s.key k := rfl

/-! ### setPc -/
@[simp] theorem setPc_params (v : Word) : (s.setPc v).params = s.params := rfl
@[simp] theorem setPc_mem (v : Word) : (s.setPc v).mem = s.mem := rfl
@[simp] theorem setPc_regs (v : Word) : (s.setPc v).regs = s.regs := rfl
@[simp] theorem setPc_index (v : Word) : (s.setPc v).index = s.index := rfl
@[simp] theorem setPc_pc (v : Word) : (s.setPc v).pc = v := rfl
@[simp] theorem setPc_stack (v : Word) : (s.setPc v).stack = s.stack := rfl
@[simp] theorem setPc_sp (v : Word) : (s.setPc v).sp = s.sp := rfl
@[simp] theorem setPc_fb (v : Word) : (s.setPc v).fb = s.fb := rfl
@[simp] theorem setPc_dt (v : Word) : (s.setPc v).dt = s.dt := rfl
@[simp] theorem setPc_st (v : Word) : (s.setPc v).st = s.st := rfl
@[simp] theorem setPc_keys (v : Word) : (s.setPc v).keys = s.keys := rfl
@[simp] theorem setPc_opc (v : Word) : (s.setPc v).opc = s.opc := rfl
@[simp] theorem setPc_randInput (v : Word) : (s.setPc v).randInput = s.randInput := rfl
@[simp] theorem setPc_draws (v : Word) : (s.setPc v).draws = s.draws := rfl
@[simp] theorem setPc_reg (v : Word) (i : Idx) : (s.setPc v).reg i = s.reg i := rfl
@[simp] theorem setPc_byte (v : Word) (a : Nat) : (s.setPc v).byte a = s.byte a := rfl
@[simp] theorem setPc_slot (v : Word) (k : Nat) : (s.setPc v).slot k = s.slot k := rfl
@[simp] theorem setPc_cell (v : Word) (k : Nat) : (s.setPc v).cell k = s.cell k := rfl
@[simp] theorem setPc_key (v : Word) (k : Idx) : (s.setPc v).key k = s.key k := rfl

/-! ### setDt -/
@[simp] theorem setDt_params (v : Byte) : (s.setDt v).params = s.params := rfl
@[simp] theorem setDt_mem (v : Byte) : (s.setDt v).mem = s.mem := rfl
@[simp] theorem setDt_regs (v : Byte) : (s.setDt v).regs = s.regs := rfl
@[simp] theorem setDt_index (v : Byte) : (s.setDt v).index = s.index := rfl
@[simp] theorem setDt_pc (v : Byte) : (s.setDt v).pc = s.pc := rfl
@[simp] theorem setDt_stack (v : Byte) : (s.setDt v).stack = s.stack := rfl
@[simp] theorem setDt_sp (v : Byte) : (s.setDt v).sp = s.sp := rfl
@[simp] theorem setDt_fb (v : Byte) : (s.setDt v).fb = s.fb := rfl
@[simp] theorem setDt_dt (v : Byte) : (s.setDt v).dt = v := rfl
@[simp] theorem setDt_st (v : Byte) : (s.setDt v).st = s.st := rfl
@[simp] theorem setDt_keys (v : Byte) : (s.setDt v).keys = s.keys := rfl
@[simp] theorem setDt_opc (v : Byte) : (s.setDt v).opc = s.opc := rfl
@[simp] theorem setDt_randInput (v : Byte) : (s.setDt v).randInput = s.randInput := rfl
@[simp] theorem setDt_draws (v : Byte) : (s.setDt v).draws = s.draws := rfl
@[simp] theorem setDt_reg (v : Byte) (i : Idx) : (s.setDt v).reg i = s.reg i := rfl
@[simp] theorem setDt_byte (v : Byte) (a : Nat) : (s.setDt v).byte a = s.byte a := rfl
@[simp] theorem setDt_slot (v : Byte) (k : Nat) : (s.setDt v).slot k = s.slot k := rfl
@[simp] theorem setDt_cell (v : Byte) (k : Nat) : (s.setDt v).cell k = s.cell k := rfl
@[simp] theorem setDt_key (v : Byte) (k : Idx) : (s.setDt v).key k = s.key k := rfl

/-! ### setSt -/
@[simp] theorem setSt_params (v : Byte) : (s.setSt v).params = s.params := rfl
@[simp] theorem setSt_mem (v : Byte) : (s.setSt v).mem = s.mem := rfl
@[simp] theorem setSt_regs (v : Byte) : (s.setSt v).regs = s.regs := rfl
@[simp] theorem setSt_index (v : Byte) : (s.setSt v).index = s.index := rfl
@[simp] theorem setSt_pc (v : Byte) : (s.setSt v).pc = s.pc := rfl
@[simp] theorem setSt_stack (v : Byte) : (s.setSt v).stack = s.stack := rfl
@[simp] theorem setSt_sp (v : Byte) : (s.setSt v).sp = s.sp := rfl
@[simp] theorem setSt_fb (v : Byte) : (s.setSt v).fb = s.fb := rfl
@[simp] theorem setSt_dt (v : Byte) : (s.setSt v).dt = s.dt := rfl
@[simp] theorem setSt_st (v : Byte) : (s.setSt v).st = v := rfl
@[simp] theorem setSt_keys (v : Byte) : (s.setSt v).keys = s.keys := rfl
@[simp] theorem setSt_opc (v : Byte) : (s.setSt v).opc = s.opc := rfl
@[simp] theorem setSt_randInput (v : Byte) : (s.setSt v).randInput = s.randInput := rfl
@[simp] theorem setSt_draws (v : Byte) : (s.setSt v).draws = s.draws := rfl
@[simp] theorem setSt_reg (v : Byte) (i : Idx) : (s.setSt v).reg i = s.reg i := rfl
@[simp] theorem setSt_byte (v : Byte) (a : Nat) : (s.setSt v).byte a = s.byte a := rfl
@[simp] theorem setSt_slot (v : Byte) (k : Nat) : (s.setSt v).slot k = s.slot k := rfl
@[simp] theorem setSt_cell (v : Byte) (k : Nat) : (s.setSt v).cell k = s.cell k := rfl
@[simp] theorem setSt_key (v : Byte) (k : Idx) : (s.setSt v).key k = s.key k := rfl

/-! ### setOpc -/
@[simp] theorem setOpc_params (v : Word) : (s.setOpc v).params = s.params := rfl
@[simp] theorem setOpc_mem (v : Word) : (s.setOpc v).mem = s.mem := rfl
@[simp] theorem setOpc_regs (v : Word) : (s.setOpc v).regs = s.regs := rfl
@[simp] theorem setOpc_index (v : Word) : (s.setOpc v).index = s.index := rfl
@[simp] theorem setOpc_pc (v : Word) : (s.setOpc v).pc = s.pc := rfl
@[simp] theorem setOpc_stack (v : Word) : (s.setOpc v).stack = s.stack := rfl
@[simp] theorem setOpc_sp (v : Word) : (s.setOpc v).sp = s.sp := rfl
@[simp] theorem setOpc_fb (v : Word) : (s.setOpc v).fb = s.fb := rfl
@[simp] theorem setOpc_dt (v : Word) : (s.setOpc v).dt = s.dt := rfl
@[simp] theorem setOpc_st (v : Word) : (s.setOpc v).st = s.st := rfl
@[simp] theorem setOpc_keys (v : Word) : (s.setOpc v).keys = s.keys := rfl
@[simp] theorem setOpc_opc (v : Word) : (s.setOpc v).opc = v := rfl
@[simp] theorem setOpc_randInput (v : Word) : (s.setOpc v).randInput = s.randInput := rfl
@[simp] theorem setOpc_draws (v : Word) : (s.setOpc v).draws = s.draws := rfl
@[simp] theorem setOpc_reg (v : Word) (i : Idx) : (s.setOpc v).reg i = s.reg i := rfl
@[simp] theorem setOpc_byte (v : Word) (a : Nat) : (s.setOpc v).byte a = s.byte a := rfl
@[simp] theorem setOpc_slot (v : Word) (k : Nat) : (s.setOpc v).slot k = s.slot k := rfl
@[simp] theorem setOpc_cell (v : Word) (k : Nat) : (s.setOpc v).cell k = s.cell k := rfl
@[simp] theorem setOpc_key (v : Word) (k : Idx) : (s.setOpc v).key k = s.key k := rfl

/-! ### push -/
@[simp] theorem push_params (v : Word) : (s.push v).params = s.params := rfl
@[simp] theorem push_mem (v : Word) : (s.push v).mem = s.mem := rfl
@[simp] theorem push_regs (v : Word) : (s.push v).regs = s.regs := rfl
@[simp] theorem push_index (v : Word) : (s.push v).index = s.index := rfl
@[simp] theorem push_pc (v : Word) : (s.push v).pc = s.pc := rfl
@[simp] theorem push_stack (v : Word) : (s.push v).stack = s.stack.setIfInBounds s.sp.toNat v := rfl
@[simp] theorem push_sp (v : Word) : (s.push v).sp = s.sp + 1#5 := rfl
@[simp] theorem push_fb (v : Word) : (s.push v).fb = s.fb := rfl
@[simp] theorem push_dt (v : Word) : (s.push v).dt = s.dt := rfl
@[simp] theorem push_st (v : Word) : (s.push v).st = s.st := rfl
@[simp] theorem push_keys (v : Word) : (s.push v).keys = s.keys := rfl
@[simp] theorem push_opc (v : Word) : (s.push v).opc = s.opc := rfl
@[simp] theorem push_randInput (v : Word) : (s.push v).randInput = s.randInput := rfl
@[simp] theorem push_draws (v : Word) : (s.push v).draws = s.draws := rfl
@[simp] theorem push_reg (v : Word) (i : Idx) : (s.push v).reg i = s.reg i := rfl
@[simp] theorem push_byte (v : Word) (a : Nat) : (s.push v).byte a = s.byte a := rfl
@[simp] theorem push_cell (v : Word) (k : Nat) : (s.push v).cell k = s.cell k := rfl
@[simp] theorem push_key (v : Word) (k : Idx) : (s.push v).key k = s.key k := rfl

/-! ### dropTop -/
@[simp] theorem dropTop_params : (s.dropTop).params = s.params := rfl
@[simp] theorem dropTop_mem : (s.dropTop).mem = s.mem := rfl
@[simp] theorem dropTop_regs : (s.dropTop).regs = s.regs := rfl
@[simp] theorem dropTop_index : (s.dropTop).index = s.index := rfl
@[simp] theorem dropTop_pc : (s.dropTop).pc = s.pc := rfl
@[simp] theorem dropTop_stack : (s.dropTop).stack = s.stack := rfl
@[simp] theorem dropTop_sp : (s.dropTop).sp = s.sp - 1#5 := rfl
@[simp] theorem dropTop_fb : (s.dropTop).fb = s.fb := rfl
@[simp] theorem dropTop_dt : (s.dropTop).dt = s.dt := rfl
@[simp] theorem dropTop_st : (s.dropTop).st = s.st := rfl
@[simp] theorem dropTop_keys : (s.dropTop).keys = s.keys := rfl
@[simp] theorem dropTop_opc : (s.dropTop).opc = s.opc := rfl
@[simp] theorem dropTop_randInput : (s.dropTop).randInput = s.randInput := rfl
@[simp] theorem dropTop_draws : (s.dropTop).draws = s.draws := rfl
@[simp] theorem dropTop_reg (i : Idx) : (s.dropTop).reg i = s.reg i := rfl
@[simp] theorem dropTop_byte (a : Nat) : (s.dropTop).byte a = s.byte a := rfl
@[simp] theorem dropTop_slot (k : Nat) : (s.dropTop).slot k = s.slot k := rfl
@[simp] theorem dropTop_cell (k : Nat) : (s.dropTop).cell k = s.cell k := rfl
@[simp] theorem dropTop_key (k : Idx) : (s.dropTop).key k = s.key k := rfl

/-! ### setFb -/
@[simp] theorem setFb_params (fb : Framebuffer) : (s.setFb fb).params = s.params := rfl
@[simp] theorem setFb_mem (fb : Framebuffer) : (s.setFb fb).mem = s.mem := rfl
@[simp] theorem setFb_regs (fb : Framebuffer) : (s.setFb fb).regs = s.regs := rfl
@[simp] theorem setFb_index (fb : Framebuffer) : (s.setFb fb).index = s.index := rfl
@[simp] theorem setFb_pc (fb : Framebuffer) : (s.setFb fb).pc = s.pc := rfl
@[simp] theorem setFb_stack (fb : Framebuffer) : (s.setFb fb).stack = s.stack := rfl
@[simp] theorem setFb_sp (fb : Framebuffer) : (s.setFb fb).sp = s.sp := rfl
@[simp] theorem setFb_fb (fb : Framebuffer) : (s.setFb fb).fb = fb := rfl
@[simp] theorem setFb_dt (fb : Framebuffer) : (s.setFb fb).dt = s.dt := rfl
@[simp] theorem setFb_st (fb : Framebuffer) : (s.setFb fb).st = s.st := rfl
@[simp] theorem setFb_keys (fb : Framebuffer) : (s.setFb fb).keys = s.keys := rfl
@[simp] theorem setFb_opc (fb : Framebuffer) : (s.setFb fb).opc = s.opc := rfl
@[simp] theorem setFb_randInput (fb : Framebuffer) : (s.setFb fb).randInput = s.randInput := rfl
@[simp] theorem setFb_draws (fb : Framebuffer) : (s.setFb fb).draws = s.draws := rfl
@[simp] theorem setFb_reg (fb : Framebuffer) (i : Idx) : (s.setFb fb).reg i = s.reg i := rfl
@[simp] theorem setFb_byte (fb : Framebuffer) (a : Nat) : (s.setFb fb).byte a = s.byte a := rfl
@[simp] theorem setFb_slot (fb : Framebuffer) (k : Nat) : (s.setFb fb).slot k = s.slot k := rfl
@[simp] theorem setFb_key (fb : Framebuffer) (k : Idx) : (s.setFb fb).key k = s.key k := rfl

/-! ### setKey -/
@[simp] theorem setKey_params (n : Idx) (v : Nat) : (s.setKey n v).params = s.params := rfl
@[simp] theorem setKey_mem (n : Idx) (v : Nat) : (s.setKey n v).mem = s.mem := rfl
@[simp] theorem setKey_regs (n : Idx) (v : Nat) : (s.setKey n v).regs = s.regs := rfl
@[simp] theorem setKey_index (n : Idx) (v : Nat) : (s.setKey n v).index = s.index := rfl
@[simp] theorem setKey_pc (n : Idx) (v : Nat) : (s.setKey n v).pc = s.pc := rfl
@[simp] theorem setKey_stack (n : Idx) (v : Nat) : (s.setKey n v).stack = s.stack := rfl
@[simp] theorem setKey_sp (n : Idx) (v : Nat) : (s.setKey n v).sp = s.sp := rfl
@[simp] theorem setKey_fb (n : Idx) (v : Nat) : (s.setKey n v).fb = s.fb := rfl
@[simp] theorem setKey_dt (n : Idx) (v : Nat) : (s.setKey n v).dt = s.dt := rfl
@[simp] theorem setKey_st (n : Idx) (v : Nat) : (s.setKey n v).st = s.st := rfl
@[simp] theorem setKey_keys (n : Idx) (v : Nat) : (s.setKey n v).keys = s.keys.set n v := rfl
@[simp] theorem setKey_opc (n : Idx) (v : Nat) : (s.setKey n v).opc = s.opc := rfl
@[simp] theorem setKey_randInput (n : Idx) (v : Nat) : (s.setKey n v).randInput = s.randInput := rfl
@[simp] theorem setKey_draws (n : Idx) (v : Nat) : (s.setKey n v).draws = s.draws := rfl
@[simp] theorem setKey_reg (n : Idx) (v : Nat) (i : Idx) : (s.setKey n v).reg i = s.reg i := rfl
@[simp] theorem setKey_byte (n : Idx) (v : Nat) (a : Nat) : (s.setKey n v).byte a = s.byte a := rfl
@[simp] theorem setKey_slot (n : Idx) (v : Nat) (k : Nat) : (s.setKey n v).slot k = s.slot k := rfl
@[simp] theorem setKey_cell (n : Idx) (v : Nat) (k : Nat) : (s.setKey n v).cell k = s.cell k := rfl

/-! ### consumeRand -/
@[simp] theorem consumeRand_params : (s.consumeRand).params = s.params := rfl
@[simp] theorem consumeRand_mem : (s.consumeRand).mem = s.mem := rfl
@[simp] theorem consumeRand_regs : (s.consumeRand).regs = s.regs := rfl
@[simp] theorem consumeRand_index : (s.consumeRand).index = s.index := rfl
@[simp] theorem consumeRand_pc : (s.consumeRand).pc = s.pc := rfl
@[simp] theorem consumeRand_stack : (s.consumeRand).stack = s.stack := rfl
@[simp] theorem consumeRand_sp : (s.consumeRand).sp = s.sp := rfl
@[simp] theorem consumeRand_fb : (s.consumeRand).fb = s.fb := rfl
@[simp] theorem consumeRand_dt : (s.consumeRand).dt = s.dt := rfl
@[simp] theorem consumeRand_st : (s.consumeRand).st = s.st := rfl
@[simp] theorem consumeRand_keys : (s.consumeRand).keys = s.keys := rfl
@[simp] theorem consumeRand_opc : (s.consumeRand).opc = s.opc := rfl
@[simp] theorem consumeRand_randInput : (s.consumeRand).randInput = s.randInput.tail := rfl
@[simp] theorem consumeRand_draws : (s.consumeRand).draws = s.draws + 1 := rfl
@[simp] theorem consumeRand_reg (i : Idx) : (s.consumeRand).reg i = s.reg i := rfl
@[simp] theorem consumeRand_byte (a : Nat) : (s.consumeRand).byte a = s.byte a := rfl
@[simp] theorem consumeRand_slot (k : Nat) : (s.consumeRand).slot k = s.slot k := rfl
@[simp] theorem consumeRand_cell (k : Nat) : (s.consumeRand).cell k = s.cell k := rfl
@[simp] theorem consumeRand_key (k : Idx) : (s.consumeRand).key k = s.key k := rfl

/-! ### tick -/
@[simp] theorem tick_params : (s.tick).params = s.params := rfl
@[simp] theorem tick_mem : (s.tick).mem = s.mem := rfl
@[simp] theorem tick_regs : (s.tick).regs = s.regs := rfl
@[simp] theorem tick_index : (s.tick).index = s.index := rfl
@[simp] theorem tick_pc : (s.tick).pc = s.pc := rfl
@[simp] theorem tick_stack : (s.tick).stack = s.stack := rfl
@[simp] theorem tick_sp : (s.tick).sp = s.sp := rfl
@[simp] theorem tick_fb : (s.tick).fb = s.fb := rfl
@[simp] theorem tick_dt : (s.tick).dt = countDown s.dt := rfl
@[simp] theorem tick_st : (s.tick).st = countDown s.st := rfl
@[simp] theorem tick_keys : (s.tick).keys = s.keys := rfl
@[simp] theorem tick_opc : (s.tick).opc = s.opc := rfl
@[simp] theorem tick_randInput : (s.tick).randInput = s.randInput := rfl
@[simp] theorem tick_draws : (s.tick).draws = s.draws := rfl
@[simp] theorem tick_reg (i : Idx) : (s.tick).reg i = s.reg i := rfl
@[simp] theorem tick_byte (a : Nat) : (s.tick).byte a = s.byte a := rfl
@[simp] theorem tick_slot (k : Nat) : (s.tick).slot k = s.slot k := rfl
@[simp] theorem tick_cell (k : Nat) : (s.tick).cell k = s.cell k := rfl
@[simp] theorem tick_key (k : Idx) : (s.tick).key k = s.key k := rfl

/-! ### advancePc -/
@[simp] theorem advancePc_params : (s.advancePc).params = s.params := rfl
@[simp] theorem advancePc_mem : (s.advancePc).mem = s.mem := rfl
@[simp] theorem advancePc_regs : (s.advancePc).regs = s.regs := rfl
@[simp] theorem advancePc_index : (s.advancePc).index = s.index := rfl
@[simp] theorem advancePc_pc : (s.advancePc).pc = s.pc + 2#16 := rfl
@[simp] theorem advancePc_stack : (s.advancePc).stack = s.stack := rfl
@[simp] theorem advancePc_sp : (s.advancePc).sp = s.sp := rfl
@[simp] theorem advancePc_fb : (s.advancePc).fb = s.fb := rfl
@[simp] theorem advancePc_dt : (s.advancePc).dt = s.dt := rfl
@[simp] theorem advancePc_st : (s.advancePc).st = s.st := rfl
@[simp] theorem advancePc_keys : (s.advancePc).keys = s.keys := rfl
@[simp] theorem advancePc_opc : (s.advancePc).opc = s.opc := rfl
@[simp] theorem advancePc_randInput : (s.advancePc).randInput = s.randInput := rfl
@[simp] theorem advancePc_draws : (s.advancePc).draws = s.draws := rfl
@[simp] theorem advancePc_reg (i : Idx) : (s.advancePc).reg i = s.reg i := rfl
@[simp] theorem advancePc_byte (a : Nat) : (s.advancePc).byte a = s.byte a := rfl
@[simp] theorem advancePc_slot (k : Nat) : (s.advancePc).slot k = s.slot k := rfl
@[simp] theorem advancePc_cell (k : Nat) : (s.advancePc).cell k = s.cell k := rfl
@[simp] theorem advancePc_key (k : Idx) : (s.advancePc).key k = s.key k := rfl

/-! ### complete -/
@[simp] theorem complete_params : (s.complete).params = s.params := rfl
@[simp] theorem complete_mem : (s.complete).mem = s.mem := rfl
@[simp] theorem complete_regs : (s.complete).regs = s.regs := rfl
@[simp] theorem complete_index : (s.complete).index = s.index := rfl
@[simp] theorem complete_pc : (s.complete).pc = s.pc + 2#16 := rfl
@[simp] theorem complete_stack : (s.complete).stack = s.stack := rfl
@[simp] theorem complete_sp : (s.complete).sp = s.sp := rfl
@[simp] theorem complete_fb : (s.complete).fb = s.fb := rfl
@[simp] theorem complete_dt : (s.complete).dt = countDown s.dt := rfl
@[simp] theorem complete_st : (s.complete).st = countDown s.st := rfl
@[simp] theorem complete_keys : (s.complete).keys = s.keys := rfl
@[simp] theorem complete_opc : (s.complete).opc = s.opc := rfl
@[simp] theorem complete_randInput : (s.complete).randInput = s.randInput := rfl
@[simp] theorem complete_draws : (s.complete).draws = s.draws := rfl
@[simp] theorem complete_reg (i : Idx) : (s.complete).reg i = s.reg i := rfl
@[simp] theorem complete_byte (a : Nat) : (s.complete).byte a = s.byte a := rfl
@[simp] theorem complete_slot (k : Nat) : (s.complete).slot k = s.slot k := rfl
@[simp] theorem complete_cell (k : Nat) : (s.complete).cell k = s.cell k := rfl
@[simp] theorem complete_key (k : Idx) : (s.complete).key k = s.key k := rfl

/-! ### completeSkip -/
@[simp] theorem completeSkip_params (c : Bool) : (s.completeSkip c).params = s.params := by cases c <;> rfl
@[simp] theorem completeSkip_pc (c : Bool) : (s.completeSkip c).pc = s.pc + (if c then 4#16 else 2#16) := by
  cases c
  · rfl
  · simp [completeSkip, BitVec.add_assoc]
@[simp] theorem completeSkip_mem (c : Bool) : (s.completeSkip c).mem = s.mem := by cases c <;> rfl
@[simp] theorem completeSkip_regs (c : Bool) : (s.completeSkip c).regs = s.regs := by cases c <;> rfl
@[simp] theorem completeSkip_index (c : Bool) : (s.completeSkip c).index = s.index := by cases c <;> rfl
@[simp] theorem completeSkip_stack (c : Bool) : (s.completeSkip c).stack = s.stack := by cases c <;> rfl
@[simp] theorem completeSkip_sp (c : Bool) : (s.completeSkip c).sp = s.sp := by cases c <;> rfl
@[simp] theorem completeSkip_fb (c : Bool) : (s.completeSkip c).fb = s.fb := by cases c <;> rfl
@[simp] theorem completeSkip_dt (c : Bool) : (s.completeSkip c).dt = countDown s.dt := by cases c <;> rfl
@[simp] theorem completeSkip_st (c : Bool) : (s.completeSkip c).st = countDown s.st := by cases c <;> rfl
@[simp] theorem completeSkip_keys (c : Bool) : (s.completeSkip c).keys = s.keys := by cases c <;> rfl
@[simp] theorem completeSkip_opc (c : Bool) : (s.completeSkip c).opc = s.opc := by cases c <;> rfl
@[simp] theorem completeSkip_randInput (c : Bool) : (s.completeSkip c).randInput = s.randInput := by cases c <;> rfl
@[simp] theorem completeSkip_draws (c : Bool) : (s.completeSkip c).draws = s.draws := by cases c <;> rfl
@[simp] theorem completeSkip_reg (c : Bool) (i : Idx) : (s.completeSkip c).reg i = s.reg i := by cases c <;> rfl
@[simp] theorem completeSkip_byte (c : Bool) (a : Nat) : (s.completeSkip c).byte a = s.byte a := by cases c <;> rfl
@[simp] theorem completeSkip_slot (c : Bool) (k : Nat) : (s.completeSkip c).slot k = s.slot k := by cases c <;> rfl
@[simp] theorem completeSkip_cell (c : Bool) (k : Nat) : (s.completeSkip c).cell k = s.cell k := by cases c <;> rfl
@[simp] theorem completeSkip_key (c : Bool) (k : Idx) : (s.completeSkip c).key k = s.key k := by cases c <;> rfl

/-! ### An unimplemented word, pressed keys, the next random byte -/

theorem completeUnimplemented_eq : s.completeUnimplemented = s.complete := rfl
theorem pressed_iff (k : Idx) : s.pressed k = true ↔ s.key k ≠ 0 := by simp [pressed]

end Sys2Proof.Machine.State
end

