-- ==== Sys2Proof/Laws/HostPort.lean ====
section
/-! SUPPORT. What a load does to memory, whole or in part. -/

namespace Sys2Proof.Machine

theorem State.loadFits_iff (s : State) (image : List Byte) :
    s.loadFits image = true ↔ s.pc.toNat + image.length ≤ 4096 := decide_eq_true_iff

theorem State.load_of_fits (s : State) (image : List Byte) (h : s.pc.toNat + image.length ≤ 4096) :
    s.load image = s.store s.pc.toNat image :=
  if_pos ((s.loadFits_iff image).mpr h)

theorem State.load_of_overflow (s : State) (image : List Byte) (h : s.pc.toNat + image.length > 4096) :
    s.load image =
      { s.setMem (Memory.loadPart s.params.font s.mem s.draws s.pc.toNat image) with draws := s.draws + 1 } :=
  if_neg (by rw [s.loadFits_iff]; omega)

variable {font : Font}

theorem Memory.loadPart_cons (m : Memory) (draw a : Nat) (b : Byte) (bs : List Byte) (h : a < 4096) :
    loadPart font m draw a (b :: bs) =
      loadPart font (if Config.loadCopies draw a then write font m a b else m) draw (a + 1) bs := if_pos h

theorem Memory.loadPart_end (m : Memory) (draw a : Nat) (bs : List Byte) (h : 4096 ≤ a) :
    loadPart font m draw a bs = m := by
  cases bs with
  | nil => rfl
  | cons b bs => exact if_neg (Nat.not_lt.mpr h)

/-- Whatever the free value says, a byte the image does not reach is as it was. -/
theorem Memory.read_loadPart_outside (bs : List Byte) (m : Memory) (draw a a' : Nat)
    (h : a' < a ∨ a + bs.length ≤ a' ∨ 4096 ≤ a') : read font (loadPart font m draw a bs) a' = read font m a' := by
  induction bs generalizing m a with
  | nil => rfl
  | cons b bs ih =>
    simp only [List.length_cons] at h
    by_cases ha : a < 4096
    · rw [loadPart_cons m draw a b bs ha, ih _ _ (by omega)]
      split
      · exact read_write_of_ne m b (by omega)
      · rfl
    · rw [loadPart_end m draw a _ (by omega)]

/-- Whatever the free value says, memory stays in canonical form. -/
theorem Memory.wf_loadPart (bs : List Byte) {m : Memory} (draw a : Nat) (h : wf font m = true) :
    wf font (loadPart font m draw a bs) = true := by
  induction bs generalizing m a with
  | nil => exact h
  | cons b bs ih =>
    by_cases ha : a < 4096
    · rw [loadPart_cons m draw a b bs ha]
      refine ih _ ?_
      split
      · exact wf_write b ha h
      · exact h
    · rw [loadPart_end m draw a _ (by omega)]; exact h

end Sys2Proof.Machine
end

