-- ==== Sys2Proof/Laws/PerInstr.lean ====
section
/-! SUPPORT. Facts about every instruction as syntax, one lemma per constructor. -/

namespace Sys2Proof.Laws.EncodedRow

/-- The encoder's word lies in a row of the opcode map (R56), whose fields read the instruction back. -/
def Statement (i : Instr) : Prop :=
  ∃ r ∈ opcodeMap, encode i &&& r.mask = r.want ∧ r.build (encode i) = i

theorem of_row (i : Instr) (k : Nat) (h : k < 34) (hm : encode i &&& (opcodeMap[k]).mask = (opcodeMap[k]).want)
    (hb : (opcodeMap[k]).build (encode i) = i) : Statement i :=
  ⟨opcodeMap[k], List.getElem_mem _, hm, hb⟩

theorem mask_drw (x y n : Idx) :
    (0xD#4 ++ nibble x ++ nibble y ++ nibble n) &&& 0xF000#16 = 0xD000#16 := by
  have e : 0xD#4 ++ nibble x ++ nibble y ++ nibble n = 0xD#4 ++ nibble x ++ (nibble y ++ nibble n) :=
    BitVec.append_assoc
  rw [e]; exact mask_xkk 0xD#4 x _

theorem cls : Statement (.cls) :=
  of_row _ 0 (by decide) (by decide) rfl
theorem ret : Statement (.ret) :=
  of_row _ 1 (by decide) (by decide) rfl
theorem jp (nnn : Addr) : Statement (.jp nnn) :=
  of_row _ 2 (by decide) (mask_nnn 0x1#4 nnn) (congrArg Instr.jp (fieldNnn_nnn 0x1#4 nnn))
theorem call (nnn : Addr) : Statement (.call nnn) :=
  of_row _ 3 (by decide) (mask_nnn 0x2#4 nnn) (congrArg Instr.call (fieldNnn_nnn 0x2#4 nnn))
theorem seImm (x : Idx) (kk : Byte) : Statement (.seImm x kk) :=
  of_row _ 4 (by decide) (mask_xkk 0x3#4 x kk)
    (congrArg₂ Instr.seImm (fieldX_xkk 0x3#4 x kk) (fieldKk_xkk 0x3#4 x kk))
theorem sneImm (x : Idx) (kk : Byte) : Statement (.sneImm x kk) :=
  of_row _ 5 (by decide) (mask_xkk 0x4#4 x kk)
    (congrArg₂ Instr.sneImm (fieldX_xkk 0x4#4 x kk) (fieldKk_xkk 0x4#4 x kk))
theorem seReg (x y : Idx) : Statement (.seReg x y) :=
  of_row _ 6 (by decide) (mask_xyn 0x5#4 0x0#4 x y)
    (congrArg₂ Instr.seReg (fieldX_xyn 0x5#4 0x0#4 x y) (fieldY_xyn 0x5#4 0x0#4 x y))
theorem sneReg (x y : Idx) : Statement (.sneReg x y) :=
  of_row _ 7 (by decide) (mask_xyn 0x9#4 0x0#4 x y)
    (congrArg₂ Instr.sneReg (fieldX_xyn 0x9#4 0x0#4 x y) (fieldY_xyn 0x9#4 0x0#4 x y))
theorem jpV0 (nnn : Addr) : Statement (.jpV0 nnn) :=
  of_row _ 8 (by decide) (mask_nnn 0xB#4 nnn) (congrArg Instr.jpV0 (fieldNnn_nnn 0xB#4 nnn))
theorem skp (x : Idx) : Statement (.skp x) :=
  of_row _ 9 (by decide) (mask_xss 0xE#4 x 0x9E#8) (congrArg Instr.skp (fieldX_xkk 0xE#4 x 0x9E#8))
theorem sknp (x : Idx) : Statement (.sknp x) :=
  of_row _ 10 (by decide) (mask_xss 0xE#4 x 0xA1#8) (congrArg Instr.sknp (fieldX_xkk 0xE#4 x 0xA1#8))
theorem ldImm (x : Idx) (kk : Byte) : Statement (.ldImm x kk) :=
  of_row _ 11 (by decide) (mask_xkk 0x6#4 x kk)
    (congrArg₂ Instr.ldImm (fieldX_xkk 0x6#4 x kk) (fieldKk_xkk 0x6#4 x kk))
theorem addImm (x : Idx) (kk : Byte) : Statement (.addImm x kk) :=
  of_row _ 12 (by decide) (mask_xkk 0x7#4 x kk)
    (congrArg₂ Instr.addImm (fieldX_xkk 0x7#4 x kk) (fieldKk_xkk 0x7#4 x kk))
theorem ldI (nnn : Addr) : Statement (.ldI nnn) :=
  of_row _ 13 (by decide) (mask_nnn 0xA#4 nnn) (congrArg Instr.ldI (fieldNnn_nnn 0xA#4 nnn))
theorem rnd (x : Idx) (kk : Byte) : Statement (.rnd x kk) :=
  of_row _ 14 (by decide) (mask_xkk 0xC#4 x kk)
    (congrArg₂ Instr.rnd (fieldX_xkk 0xC#4 x kk) (fieldKk_xkk 0xC#4 x kk))
theorem ldReg (x y : Idx) : Statement (.ldReg x y) :=
  of_row _ 15 (by decide) (mask_xyn 0x8#4 0x0#4 x y)
    (congrArg₂ Instr.ldReg (fieldX_xyn 0x8#4 0x0#4 x y) (fieldY_xyn 0x8#4 0x0#4 x y))
theorem orReg (x y : Idx) : Statement (.orReg x y) :=
  of_row _ 16 (by decide) (mask_xyn 0x8#4 0x1#4 x y)
    (congrArg₂ Instr.orReg (fieldX_xyn 0x8#4 0x1#4 x y) (fieldY_xyn 0x8#4 0x1#4 x y))
theorem andReg (x y : Idx) : Statement (.andReg x y) :=
  of_row _ 17 (by decide) (mask_xyn 0x8#4 0x2#4 x y)
    (congrArg₂ Instr.andReg (fieldX_xyn 0x8#4 0x2#4 x y) (fieldY_xyn 0x8#4 0x2#4 x y))
theorem xorReg (x y : Idx) : Statement (.xorReg x y) :=
  of_row _ 18 (by decide) (mask_xyn 0x8#4 0x3#4 x y)
    (congrArg₂ Instr.xorReg (fieldX_xyn 0x8#4 0x3#4 x y) (fieldY_xyn 0x8#4 0x3#4 x y))
theorem addReg (x y : Idx) : Statement (.addReg x y) :=
  of_row _ 19 (by decide) (mask_xyn 0x8#4 0x4#4 x y)
    (congrArg₂ Instr.addReg (fieldX_xyn 0x8#4 0x4#4 x y) (fieldY_xyn 0x8#4 0x4#4 x y))
theorem subReg (x y : Idx) : Statement (.subReg x y) :=
  of_row _ 20 (by decide) (mask_xyn 0x8#4 0x5#4 x y)
    (congrArg₂ Instr.subReg (fieldX_xyn 0x8#4 0x5#4 x y) (fieldY_xyn 0x8#4 0x5#4 x y))
theorem shr (x y : Idx) : Statement (.shr x y) :=
  of_row _ 21 (by decide) (mask_xyn 0x8#4 0x6#4 x y)
    (congrArg₂ Instr.shr (fieldX_xyn 0x8#4 0x6#4 x y) (fieldY_xyn 0x8#4 0x6#4 x y))
theorem subnReg (x y : Idx) : Statement (.subnReg x y) :=
  of_row _ 22 (by decide) (mask_xyn 0x8#4 0x7#4 x y)
    (congrArg₂ Instr.subnReg (fieldX_xyn 0x8#4 0x7#4 x y) (fieldY_xyn 0x8#4 0x7#4 x y))
theorem shl (x y : Idx) : Statement (.shl x y) :=
  of_row _ 23 (by decide) (mask_xyn 0x8#4 0xE#4 x y)
    (congrArg₂ Instr.shl (fieldX_xyn 0x8#4 0xE#4 x y) (fieldY_xyn 0x8#4 0xE#4 x y))
theorem drw (x y n : Idx) : Statement (.drw x y n) :=
  of_row _ 24 (by decide) (mask_drw x y n) (by
    change Instr.drw _ _ _ = _
    simp only [encode, fieldX_xyn, fieldY_xyn, fieldN_xyn, nibble_toFin])
theorem ldVxDt (x : Idx) : Statement (.ldVxDt x) :=
  of_row _ 25 (by decide) (mask_xss 0xF#4 x 0x07#8) (congrArg Instr.ldVxDt (fieldX_xkk 0xF#4 x 0x07#8))
theorem ldVxK (x : Idx) : Statement (.ldVxK x) :=
  of_row _ 26 (by decide) (mask_xss 0xF#4 x 0x0A#8) (congrArg Instr.ldVxK (fieldX_xkk 0xF#4 x 0x0A#8))
theorem ldDtVx (x : Idx) : Statement (.ldDtVx x) :=
  of_row _ 27 (by decide) (mask_xss 0xF#4 x 0x15#8) (congrArg Instr.ldDtVx (fieldX_xkk 0xF#4 x 0x15#8))
theorem ldStVx (x : Idx) : Statement (.ldStVx x) :=
  of_row _ 28 (by decide) (mask_xss 0xF#4 x 0x18#8) (congrArg Instr.ldStVx (fieldX_xkk 0xF#4 x 0x18#8))
theorem addI (x : Idx) : Statement (.addI x) :=
  of_row _ 29 (by decide) (mask_xss 0xF#4 x 0x1E#8) (congrArg Instr.addI (fieldX_xkk 0xF#4 x 0x1E#8))
theorem ldF (x : Idx) : Statement (.ldF x) :=
  of_row _ 30 (by decide) (mask_xss 0xF#4 x 0x29#8) (congrArg Instr.ldF (fieldX_xkk 0xF#4 x 0x29#8))
theorem ldB (x : Idx) : Statement (.ldB x) :=
  of_row _ 31 (by decide) (mask_xss 0xF#4 x 0x33#8) (congrArg Instr.ldB (fieldX_xkk 0xF#4 x 0x33#8))
theorem storeRegs (x : Idx) : Statement (.storeRegs x) :=
  of_row _ 32 (by decide) (mask_xss 0xF#4 x 0x55#8) (congrArg Instr.storeRegs (fieldX_xkk 0xF#4 x 0x55#8))
theorem loadRegs (x : Idx) : Statement (.loadRegs x) :=
  of_row _ 33 (by decide) (mask_xss 0xF#4 x 0x65#8) (congrArg Instr.loadRegs (fieldX_xkk 0xF#4 x 0x65#8))

end Sys2Proof.Laws.EncodedRow
end

