-- ==== Sys2Proof/Laws/Registers.lean ====
section
/-! SUPPORT. What each shared operation over registers, stack, timers, keys and operands does, once. -/

namespace Sys2Proof.Machine

/-! ### Registers (R11) -/

theorem State.reg_setReg (s : State) (x y : Idx) (v : Byte) :
    (s.setReg x v).reg y = if y = x then v else s.reg y := by
  simp only [State.reg, State.setReg_regs, Fin.getElem_fin, Vector.getElem_set, Fin.ext_iff, eq_comm]

@[simp] theorem State.reg_setReg_self (s : State) (x : Idx) (v : Byte) : (s.setReg x v).reg x = v := by
  simp [State.reg_setReg]

theorem State.reg_setReg_of_ne (s : State) {x y : Idx} (v : Byte) (h : y ≠ x) :
    (s.setReg x v).reg y = s.reg y := by
  simp [State.reg_setReg, h]

theorem State.setFlag_eq (s : State) (f : Bool) :
    s.setFlag f = s.setReg Config.flagReg (if f then 1#8 else 0#8) := rfl

theorem State.reg_setFlag (s : State) (f : Bool) (y : Idx) :
    (s.setFlag f).reg y = if y = Config.flagReg then (if f then 1#8 else 0#8) else s.reg y := by
  rw [State.setFlag_eq, State.reg_setReg]

theorem getElem_loadRegFile (bs : List Byte) (regs : Vector Byte 16) (k j : Nat) (h : j < 16) :
    (loadRegFile regs k bs)[j] =
      if h' : k ≤ j ∧ j < k + bs.length then bs[j - k]'(by omega) else regs[j] := by
  induction bs generalizing regs k with
  | nil => simp [loadRegFile]
  | cons b bs ih =>
    rw [loadRegFile, ih]
    by_cases h1 : j = k
    · subst h1; simp
    · by_cases h2 : k ≤ j ∧ j < k + (b :: bs).length
      · have h3 : k + 1 ≤ j ∧ j < k + 1 + bs.length := by
          simp only [List.length_cons] at h2; omega
        have h4 : j - k = j - (k + 1) + 1 := by omega
        rw [dif_pos h3, dif_pos h2]; simp [h4]
      · have h3 : ¬ (k + 1 ≤ j ∧ j < k + 1 + bs.length) := by
          simp only [List.length_cons] at h2; omega
        rw [dif_neg h3, dif_neg h2, Vector.getElem_setIfInBounds_ne _ (by omega)]

/-- The registers after a block load (R133). -/
theorem State.reg_setRegs (s : State) (bs : List Byte) (x : Idx) :
    (s.setRegs bs).reg x = if h : x.val < bs.length then bs[x.val] else s.reg x := by
  simp only [State.reg, State.setRegs_regs, Fin.getElem_fin, getElem_loadRegFile]
  by_cases h : x.val < bs.length <;> simp [h]

@[simp] theorem State.length_firstRegs (s : State) (x : Idx) :
    (s.firstRegs (x.val + 1)).length = x.val + 1 := by
  simp [State.firstRegs]

/-- The bytes of a block store (R132). -/
theorem State.getElem_firstRegs (s : State) (n k : Nat) (h : k < (s.firstRegs n).length) (hk : k < 16) :
    (s.firstRegs n)[k] = s.reg ⟨k, hk⟩ := by
  simp [State.firstRegs, State.reg]

/-! ### Stack (R15, R16) -/

theorem State.slot_push (s : State) (v : Word) (k : Nat) (h : s.sp.toNat < 16) :
    (s.push v).slot k = if k = s.sp.toNat then some v else s.slot k := by
  by_cases hk : k = s.sp.toNat
  · subst hk; simp [State.slot, h]
  · simp only [State.slot, State.push_stack, if_neg hk]
    rw [Vector.getElem?_setIfInBounds_ne (by omega)]

theorem State.slot_eq_some (s : State) (k : Nat) (h : k < 16) : s.slot k = some s.stack[k] := by
  simp [State.slot, h]

theorem State.push_sp_toNat (s : State) (v : Word) (h : s.sp.toNat < 16) :
    (s.push v).sp.toNat = s.sp.toNat + 1 := by
  simp only [State.push_sp, BitVec.toNat_add, BitVec.toNat_ofNat]; omega

theorem State.dropTop_sp_toNat (s : State) (h : s.sp ≠ 0#5) :
    s.dropTop.sp.toNat = s.sp.toNat - 1 := by
  have : s.sp.toNat ≠ 0 := fun e => h (BitVec.eq_of_toNat_eq (by simpa using e))
  have := s.sp.isLt
  simp only [State.dropTop_sp, BitVec.toNat_sub, BitVec.toNat_ofNat]; omega

/-! ### Timers and the program counter (R70, R71) -/

/-- A timer counts toward zero and stays there (R71). -/
theorem countDown_toNat (t : Byte) : (countDown t).toNat = t.toNat - 1 := by
  unfold countDown
  split
  · rename_i h; simp [h]
  · rename_i h
    have h0 : t.toNat ≠ 0 := fun e => h (BitVec.eq_of_toNat_eq (by simpa using e))
    have := t.isLt
    simp only [BitVec.toNat_sub, BitVec.toNat_ofNat]; omega

theorem toNat_add_two (v : Word) : (v + 2#16).toNat = (v.toNat + 2) % 65536 := by
  simp [BitVec.toNat_add]

/-! ### Keys (R126) -/

theorem State.firstPressed_eq_some (s : State) (k : Idx) :
    s.firstPressed = some k ↔ s.key k ≠ 0 ∧ ∀ j < k, s.key j = 0 := by
  have hp : ∀ j, s.pressed j = true ↔ s.key j ≠ 0 := s.pressed_iff
  have hn : ∀ j, s.pressed j = false ↔ s.key j = 0 := fun j => by
    rw [← Bool.not_eq_true, hp]; simp
  unfold State.firstPressed
  rw [List.find?_eq_some_iff_getElem]
  simp only [List.length_finRange, List.getElem_finRange, Bool.not_eq_true']
  constructor
  · rintro ⟨h1, i, hi, h2, h3⟩
    refine ⟨(hp k).mp h1, fun j hj => (hn j).mp ?_⟩
    have hji : j.val < i := by
      have := congrArg Fin.val h2
      simp only [Fin.val_cast] at this
      have : j.val < k.val := hj
      omega
    simpa using h3 j.val hji
  · rintro ⟨h1, h2⟩
    exact ⟨(hp k).mpr h1, k.val, k.isLt, by ext; simp, fun j hj => (hn _).mpr (h2 _ hj)⟩

theorem State.firstPressed_eq_none (s : State) : s.firstPressed = none ↔ ∀ k, s.key k = 0 := by
  simp [State.firstPressed, List.find?_eq_none, State.pressed_iff]

/-! ### Operands (R54) -/

@[simp] theorem addrToWord_toNat (nnn : Addr) : (addrToWord nnn).toNat = nnn.toNat := by
  have := nnn.isLt
  simp only [addrToWord, BitVec.toNat_setWidth]; omega

@[simp] theorem byteToWord_toNat (v : Byte) : (byteToWord v).toNat = v.toNat := by
  have := v.isLt
  simp only [byteToWord, BitVec.toNat_setWidth]; omega

@[simp] theorem length_bcdDigits (v : Byte) : (bcdDigits v).length = 3 := rfl

theorem glyphAddress_toNat (g : Nat) (h : g < 16) : (glyphAddress g).toNat = 5 * g := by
  simp only [glyphAddress, Config.glyphLen, BitVec.toNat_ofNat]; omega

/-! ### The guards of the cases without a result (R144) -/

/-- A data access inside memory runs its body; another faults before any change (R38). -/
theorem withData_cases (s : State) (len : Nat) (body : State → Result) :
    (len ≥ 1 ∧ s.index.toNat + len > 4096 ∧ withData s len body = .fault .dataAddressOutOfRange) ∨
    ((len = 0 ∨ s.index.toNat + len ≤ 4096) ∧ withData s len body = body s) := by
  unfold withData
  by_cases h : 1 ≤ len ∧ s.index.toNat + len - 1 ≥ Config.memSize
  · rw [if_pos h]
    simp only [Config.memSize] at h
    exact .inl ⟨h.1, by omega, rfl⟩
  · rw [if_neg h]
    simp only [Config.memSize] at h
    exact .inr ⟨by omega, rfl⟩

theorem withData_ok (s : State) (len : Nat) (body : State → Result)
    (h : len = 0 ∨ s.index.toNat + len ≤ 4096) : withData s len body = body s := by
  rcases withData_cases s len body with ⟨h1, h2, -⟩ | ⟨-, e⟩
  · omega
  · exact e

theorem withData_fault (s : State) (len : Nat) (body : State → Result)
    (h : len ≥ 1 ∧ s.index.toNat + len > 4096) : withData s len body = .fault .dataAddressOutOfRange := by
  rcases withData_cases s len body with ⟨-, -, e⟩ | ⟨h1, -⟩
  · exact e
  · omega

/-- A key number up to 15 is used; another faults (R91). -/
theorem withKey_ok (v : Byte) (body : Idx → Result) (h : v.toNat < 16) :
    withKey v body = body ⟨v.toNat, h⟩ := by simp [withKey, h]

theorem withKey_fault (v : Byte) (body : Idx → Result) (h : v.toNat ≥ 16) :
    withKey v body = .fault .keyIndexOutOfRange := by simp [withKey, Nat.not_lt.mpr h]

end Sys2Proof.Machine
end

