-- ==== Sys2Proof/Laws/Step.lean ====
section
/-! SUPPORT. What a step can do, said once: the guard, the instruction with a meaning on every path apart,
and the cases of the others. -/

namespace Sys2Proof.Machine

/-! ### Guard and fetch (R66, R67) -/

theorem State.fetchRefused_iff (s : State) :
    s.fetchRefused = true ↔ s.pc.toNat + 1 ≥ s.params.fetchLimit.val := decide_eq_true_iff

theorem State.fetchRefused_eq_false (s : State) :
    s.fetchRefused = false ↔ s.pc.toNat + 1 < s.params.fetchLimit.val := by
  rw [← Bool.not_eq_true, s.fetchRefused_iff]; omega

/-- Whatever the parameter, a cycle that passes the guard fetches inside memory (R67). -/
theorem State.fetch_inside (s : State) (h : s.pc.toNat + 1 < s.params.fetchLimit.val) : s.pc.toNat + 1 < 4096 := by
  have := s.params.fetchLimit.isLt; omega

theorem step_of_guard (s : State) (h : s.pc.toNat + 1 ≥ s.params.fetchLimit.val) :
    step s = .fault (.addressOutOfBounds s.pc) := by
  rw [step, if_pos (s.fetchRefused_iff.mpr h)]

theorem step_of_decode (s : State) (i : Instr) (h : s.pc.toNat + 1 < s.params.fetchLimit.val)
    (hd : decode s.fetchWord = .ok i) : step s = exec i s.fetched := by
  rw [step, s.fetchRefused_eq_false.mpr h, hd]; rfl

theorem step_of_reject (s : State) (r : DecodeReject) (h : s.pc.toNat + 1 < s.params.fetchLimit.val)
    (hd : decode s.fetchWord = .error r) : step s = .next s.fetched.complete := by
  rw [step, s.fetchRefused_eq_false.mpr h, hd]; rfl

/-- Everything a step that goes on can have done. -/
theorem step_cases {s t : State} (h : step s = .next t) :
    s.pc.toNat + 1 < s.params.fetchLimit.val ∧
      ((∃ i, decode s.fetchWord = .ok i ∧ exec i s.fetched = .next t) ∨
        (∃ r, decode s.fetchWord = .error r ∧ t = s.fetched.complete)) := by
  by_cases hg : s.pc.toNat + 1 < s.params.fetchLimit.val
  · refine ⟨hg, ?_⟩
    cases hd : decode s.fetchWord with
    | ok i => exact .inl ⟨i, rfl, by rw [← h, step_of_decode s i hg hd]⟩
    | error r =>
      rw [step_of_reject s r hg hd] at h
      exact .inr ⟨r, rfl, (Host.Outcome.next.inj h).symm⟩
  · rw [step_of_guard s (by omega)] at h; cases h

/-! ### The meanings that do not answer a next state everywhere (R144) -/

theorem execRet_cases (s : State) :
    (s.sp = 0#5 ∧ execRet s = .fault .stackUnderflow) ∨
    (s.sp.toNat > 16 ∧ execRet s = .fault .stackSlotAbsent) ∨
    (∃ v, 1 ≤ s.sp.toNat ∧ s.sp.toNat ≤ 16 ∧ s.slot (s.sp.toNat - 1) = some v ∧
      execRet s = .next (s.dropTop.setPc v).complete) := by
  unfold execRet
  by_cases h : s.sp = 0#5
  · exact .inl ⟨h, if_pos h⟩
  · rw [if_neg h]
    have h0 : s.sp.toNat ≠ 0 := fun e => h (BitVec.eq_of_toNat_eq (by simpa using e))
    by_cases h1 : s.sp.toNat ≤ 16
    · have e := s.slot_eq_some (s.sp.toNat - 1) (by omega)
      exact .inr (.inr ⟨_, by omega, h1, e, by rw [e]⟩)
    · have e : s.slot (s.sp.toNat - 1) = none := by
        unfold State.slot; exact Vector.getElem?_eq_none (by omega)
      exact .inr (.inl ⟨by omega, by rw [e]⟩)

theorem execCall_cases (nnn : Addr) (s : State) :
    (s.sp.toNat ≥ 16 ∧ execCall nnn s = .fault .stackOverflow) ∨
    (s.sp.toNat < 16 ∧ execCall nnn s = .next ((s.push s.pc).setPc (addrToWord nnn)).tick) := by
  unfold execCall
  by_cases h : s.sp.toNat ≥ Config.stackDepth
  · exact .inl ⟨h, if_pos h⟩
  · exact .inr ⟨Nat.lt_of_not_le h, if_neg h⟩

theorem execLdVxK_cases (x : Idx) (s : State) :
    ((∀ k, s.key k = 0) ∧ execLdVxK x s = .next s) ∨
    (∃ k, s.key k ≠ 0 ∧ (∀ j < k, s.key j = 0) ∧
      execLdVxK x s = .next (s.setReg x (BitVec.ofNat 8 k.val)).complete) := by
  unfold execLdVxK
  cases h : s.firstPressed with
  | none => exact .inl ⟨s.firstPressed_eq_none.mp h, rfl⟩
  | some k => exact .inr ⟨k, ((s.firstPressed_eq_some k).mp h).1, ((s.firstPressed_eq_some k).mp h).2, rfl⟩

/-- What a draw that goes on does; Laws/Draw.lean says what the drawn canvas is. -/
theorem execDrw_cases (x y n : Idx) (s : State) :
    ((x = 15 ∨ y = 15) ∧ execDrw x y n s = .refused .drawFlagCoordinate) ∨
    (x ≠ 15 ∧ y ≠ 15 ∧ n.val ≥ 1 ∧ s.index.toNat + n.val > 4096 ∧
      execDrw x y n s = .fault .dataAddressOutOfRange) ∨
    (x ≠ 15 ∧ y ≠ 15 ∧ (n.val = 0 ∨ s.index.toNat + n.val ≤ 4096) ∧
      ∃ c, c = drawRows (s.reg x) (s.reg y) 0 (s.bytes s.index.toNat n) ⟨s.fb, false⟩ ∧
        execDrw x y n s = .next ((s.setFb c.fb).setFlag c.hit).complete) := by
  unfold execDrw
  by_cases h : x = Config.flagReg ∨ y = Config.flagReg
  · exact .inl ⟨h, if_pos h⟩
  · rw [if_neg h]
    rw [not_or] at h
    rcases withData_cases s n _ with ⟨h1, h2, e⟩ | ⟨h1, e⟩
    · exact .inr (.inl ⟨h.1, h.2, h1, h2, e⟩)
    · exact .inr (.inr ⟨h.1, h.2, h1, _, rfl, e⟩)

/-! ### A word placed where the next step fetches -/

theorem State.withFetchWord_fetchWord (s : State) (w : Word) : (s.withFetchWord 16 w.toNat).fetchWord = w := by
  have hw : BitVec.ofNat 16 (w.toNat % 2 ^ 16) = w := by
    apply BitVec.eq_of_toNat_eq
    have := w.isLt
    simp only [BitVec.toNat_ofNat]; omega
  unfold State.withFetchWord
  rw [hw]
  generalize s.readyToFetch = u
  have h0 := u.byte_store_inside u.pc.toNat 0 (bytesOfWord w) (show 0 < 2 by decide)
  have h1 := u.byte_store_inside u.pc.toNat 1 (bytesOfWord w) (show 1 < 2 by decide)
  unfold State.fetchWord
  rw [State.store_pc, h1]
  exact (congrArg (wordOfBytes · _) h0).trans (wordOfBytes_bytesOfWord w)

theorem State.readyToFetch_guard (s : State) :
    s.readyToFetch.pc.toNat + 1 < s.readyToFetch.params.fetchLimit.val := by
  rw [← State.fetchRefused_eq_false]
  unfold State.readyToFetch
  cases h : s.fetchRefused with
  | false => exact h
  | true =>
    cases h' : (s.setPc Config.progBase).fetchRefused with
    | false => simp [h']
    | true => simp only [h', if_true]; rfl

/-- The next step runs the placed instruction. -/
theorem step_withFetchWord (s : State) (w : Word) (i : Instr) (hd : decode w = .ok i) :
    step (s.withFetchWord 16 w.toNat) = exec i (s.withFetchWord 16 w.toNat).fetched :=
  step_of_decode _ i s.readyToFetch_guard (by rw [s.withFetchWord_fetchWord]; exact hd)

end Sys2Proof.Machine
end

