-- ==== Sys2Proof/Tests/Slice0.lean ====
section
/-! SUPPORT. The tests. Every expected value is one that spec/95_test_vectors.md prints, or is worked out
by hand from the rule the test names; none is an answer of the model. A step test places its word at `pc`
and takes one step. The last part shows a state and operands for the hypotheses of every statement. -/

namespace Sys2Proof.Tests

open Sys2Proof.Machine

/-! ## Helpers -/

/-- What `f` sees in the next state, if there is one. -/
def after {α : Type} (o : Result) (f : State → α) : Option α :=
  match o with
  | .next t => some (f t)
  | _ => none

/-- The fault, if there is one. -/
def faultOf (o : Result) : Option Fault :=
  match o with
  | .fault f => some f
  | _ => none

/-- The refusal, if there is one. -/
def refusalOf (o : Result) : Option Refusal :=
  match o with
  | .refused r => some r
  | _ => none

/-- What `f` sees in the report and the next state of `advance()`. -/
def reported {α : Type} (o : Host.Outcome (Report × State) Fault Refusal) (f : Report → State → α) : Option α :=
  match o with
  | .next (r, t) => some (f r t)
  | _ => none

/-- One step of the word `w` placed at `pc`. -/
def run (w : Nat) (s : State) : Result := step (s.withFetchWord 16 w)

/-- The state after `init()`. -/
abbrev r0 : State := State.reset

/-- Bytes stored at an address. -/
def poke (s : State) (a : Nat) (bs : List Byte) : State := s.store a bs

/-- The stack with `n` slots taken, slot 0 holding `v`. -/
def stacked (s : State) (n : Nat) (v : Word) : State :=
  { s with sp := BitVec.ofNat 5 n, stack := s.stack.set 0 v }

/-- The timers set. -/
def timed (s : State) (dt st : Byte) : State := (s.setDt dt).setSt st

/-- The cells of a list are lit. -/
def lit (s : State) (ks : List Nat) : State := s.setFb (ks.foldl (fun fb k => fb ||| BitVec.twoPow 2048 k) s.fb)

/-! ## Well-formedness: one ill-formed term for each check, and one that passes -/

theorem test_wf_rejects_drw_x_flag : Instr.wellFormed (.drw 15 0 1) = false := by decide

theorem test_wf_rejects_drw_y_flag : Instr.wellFormed (.drw 0 15 1) = false := by decide

theorem test_wf_accepts_drw : Instr.wellFormed (.drw 14 0 15) = true := by decide

theorem test_wf_rejects_image_of_3585_bytes :
    imageFits (List.replicate 3585 0#8) = false := by
  rw [imageFits, List.length_replicate]; decide

theorem test_wf_accepts_image_of_3584_bytes :
    imageFits (List.replicate 3584 0#8) = true := by
  rw [imageFits, List.length_replicate]; decide

/-! ## Decoding: every constructor by a word written out in bits from the patterns of R56 -/

theorem test_decode_cls : decode 0b0000_0000_1110_0000#16 = .ok .cls := by decide

theorem test_decode_ret : decode 0b0000_0000_1110_1110#16 = .ok .ret := by decide

theorem test_decode_jp : decode 0b0001_0010_0011_0100#16 = .ok (.jp 0x234#12) := by decide

theorem test_decode_call : decode 0b0010_0010_1111_0000#16 = .ok (.call 0x2F0#12) := by decide

theorem test_decode_seImm : decode 0b0011_1111_0000_0000#16 = .ok (.seImm 15 0x00#8) := by decide

theorem test_decode_sneImm : decode 0b0100_0011_0010_1010#16 = .ok (.sneImm 3 0x2A#8) := by decide

theorem test_decode_seReg : decode 0b0101_0001_0010_0000#16 = .ok (.seReg 1 2) := by decide

theorem test_decode_sneReg : decode 0b1001_1100_0011_0000#16 = .ok (.sneReg 12 3) := by decide

theorem test_decode_jpV0 : decode 0b1011_1111_1111_1111#16 = .ok (.jpV0 0xFFF#12) := by decide

theorem test_decode_skp : decode 0b1110_0010_1001_1110#16 = .ok (.skp 2) := by decide

theorem test_decode_sknp : decode 0b1110_0000_1010_0001#16 = .ok (.sknp 0) := by decide

theorem test_decode_ldImm : decode 0b0110_0011_0111_1111#16 = .ok (.ldImm 3 0x7F#8) := by decide

theorem test_decode_addImm : decode 0b0111_1010_1111_1110#16 = .ok (.addImm 10 0xFE#8) := by decide

theorem test_decode_ldI : decode 0b1010_0010_1111_0000#16 = .ok (.ldI 0x2F0#12) := by decide

theorem test_decode_rnd : decode 0b1100_0001_0000_1111#16 = .ok (.rnd 1 0x0F#8) := by decide

theorem test_decode_ldReg : decode 0b1000_0001_0010_0000#16 = .ok (.ldReg 1 2) := by decide

theorem test_decode_orReg : decode 0b1000_0001_0010_0001#16 = .ok (.orReg 1 2) := by decide

theorem test_decode_andReg : decode 0b1000_0001_0010_0010#16 = .ok (.andReg 1 2) := by decide

theorem test_decode_xorReg : decode 0b1000_0001_0010_0011#16 = .ok (.xorReg 1 2) := by decide

theorem test_decode_addReg : decode 0b1000_1010_1011_0100#16 = .ok (.addReg 10 11) := by decide

theorem test_decode_subReg : decode 0b1000_0001_0010_0101#16 = .ok (.subReg 1 2) := by decide

theorem test_decode_shr : decode 0b1000_0011_1010_0110#16 = .ok (.shr 3 10) := by decide

theorem test_decode_subnReg : decode 0b1000_0001_0010_0111#16 = .ok (.subnReg 1 2) := by decide

theorem test_decode_shl : decode 0b1000_0011_1010_1110#16 = .ok (.shl 3 10) := by decide

theorem test_decode_drw : decode 0b1101_0001_0010_0101#16 = .ok (.drw 1 2 5) := by decide

theorem test_decode_ldVxDt : decode 0b1111_0001_0000_0111#16 = .ok (.ldVxDt 1) := by decide

theorem test_decode_ldVxK : decode 0b1111_0010_0000_1010#16 = .ok (.ldVxK 2) := by decide

theorem test_decode_ldDtVx : decode 0b1111_0000_0001_0101#16 = .ok (.ldDtVx 0) := by decide

theorem test_decode_ldStVx : decode 0b1111_0011_0001_1000#16 = .ok (.ldStVx 3) := by decide

theorem test_decode_addI : decode 0b1111_0100_0001_1110#16 = .ok (.addI 4) := by decide

theorem test_decode_ldF : decode 0b1111_0001_0010_1001#16 = .ok (.ldF 1) := by decide

theorem test_decode_ldB : decode 0b1111_0000_0011_0011#16 = .ok (.ldB 0) := by decide

theorem test_decode_storeRegs : decode 0b1111_1111_0101_0101#16 = .ok (.storeRegs 15) := by decide

theorem test_decode_loadRegs : decode 0b1111_0101_0110_0101#16 = .ok (.loadRegs 5) := by decide

theorem test_decode_rejects_0000 : decode 0x0000#16 = .error (.unimplementedOpcode 0x0000#16) := by decide

theorem test_decode_rejects_00E1 : decode 0x00E1#16 = .error (.unimplementedOpcode 0x00E1#16) := by decide

theorem test_decode_rejects_0123 : decode 0x0123#16 = .error (.unimplementedOpcode 0x0123#16) := by decide

theorem test_decode_rejects_5121 : decode 0x5121#16 = .error (.unimplementedOpcode 0x5121#16) := by decide

theorem test_decode_rejects_9121 : decode 0x9121#16 = .error (.unimplementedOpcode 0x9121#16) := by decide

theorem test_decode_rejects_812F : decode 0x812F#16 = .error (.unimplementedOpcode 0x812F#16) := by decide

theorem test_decode_rejects_8128 : decode 0x8128#16 = .error (.unimplementedOpcode 0x8128#16) := by decide

theorem test_decode_rejects_E19F : decode 0xE19F#16 = .error (.unimplementedOpcode 0xE19F#16) := by decide

theorem test_decode_rejects_F175 : decode 0xF175#16 = .error (.unimplementedOpcode 0xF175#16) := by decide

theorem test_decode_bytes_high_first :
    decodeBytes [0x12#8, 0x34#8, 0x99#8] = .ok (.jp 0x234#12, [0x99#8]) := by decide

theorem test_decode_bytes_truncated : decodeBytes [0x12#8] = .error .truncated := by decide

theorem test_encode_ld : encode (.ldImm 3 0x7F#8) = 0x637F#16 := by decide

theorem test_encode_drw : encode (.drw 10 11 15) = 0xDABF#16 := by decide

theorem test_bytes_of_call : bytesOfWord 0x22F0#16 = [0x22#8, 0xF0#8] := by decide

theorem test_decode_table_word : decodeTableWord 16 0x22F0 = some (.call 0x2F0#12) := by decide

theorem test_decode_table_word_reject : decodeTableWord 16 0x812F = none := by decide

/-! ## The cycle (spec/95_test_vectors.md, 2.2) -/

theorem test_fetch_last_word :
    after (run 0x6007 (r0.setPc 0xFFE#16)) (fun t => (t.reg 0, t.pc)) = some (7#8, 0x1000#16) := by decide

theorem test_guard_at_4095 :
    faultOf (step (r0.setPc 0xFFF#16)) = some (.addressOutOfBounds 0xFFF#16) := by decide

/-- D1: a claim can take `FETCH_LIMIT = 0x999`. -/
theorem test_guard_with_the_printed_literal :
    faultOf (step { r0.setPc 0x998#16 with params.fetchLimit := 0x999 }) = some (.addressOutOfBounds 0x998#16) ∧
    faultOf (step { r0.setPc 0x997#16 with params.fetchLimit := 0x999 }) = none := by decide

theorem test_another_font :
    (State.resetWith { Params.default with font := Vector.replicate 80 0x55#8 }).bytes 78 4 = [0x55#8, 0x55#8, 0#8, 0#8] := by decide

theorem test_placed_word_runs_where_the_guard_refuses :
    after (run 0x6A7F { r0.setPc 0xFFF#16 with params.fetchLimit := 0 }) (fun t => (t.reg 10, t.pc)) = some (0x7F#8, 0x202#16) := by decide

theorem test_guard_report :
    reported (advance (timed (r0.setPc 0x10FE#16) 5 0)) (fun r t => (r, t.dt)) = some (.addressOutOfBounds 0x10FE#16, 5#8) := by decide

theorem test_unimplemented_report :
    reported (advance ((timed r0 2 1).withFetchWord 16 0x0123)) (fun r t => (r, t.pc, t.dt, t.st, t.opc)) =
      some (.unimplementedOpcode 0x0123#16, 0x202#16, 1#8, 0#8, 0x0123#16) := by decide

theorem test_unimplemented_family_5 :
    after (run 0x5121 ((r0.setReg 1 7).setReg 2 7)) (fun t => t.pc) = some 0x202#16 := by decide

theorem test_odd_pc :
    after (run 0x6005 (r0.setPc 0x201#16)) (fun t => (t.reg 0, t.pc)) = some (5#8, 0x203#16) := by decide

theorem test_tick_does_not_wrap :
    after (run 0x6000 (timed r0 1 0)) (fun t => (t.dt, t.st)) = some (0#8, 0#8) := by decide

theorem test_reset_runs_a_reported_no_op :
    reported (advance r0) (fun r t => (r, t.pc)) = some (.unimplementedOpcode 0#16, 0x202#16) := by decide

/-! ## Control flow (2.3) -/

theorem test_cls :
    after (run 0x00E0 (lit (timed (r0.setFlag true) 1 0) [0, 2047])) (fun t => (t.fb, t.reg 15, t.dt, t.pc)) =
      some (0#2048, 1#8, 0#8, 0x202#16) := by decide +kernel

theorem test_ret :
    after (run 0x00EE (stacked (timed (r0.setPc 0x212#16) 3 0) 1 0x204#16)) (fun t => (t.sp, t.pc, t.dt, t.slot 0)) =
      some (0#5, 0x206#16, 2#8, some 0x204#16) := by decide

theorem test_ret_underflow : faultOf (run 0x00EE r0) = some .stackUnderflow := by decide

theorem test_jp :
    after (run 0x1204 (timed (r0.setPc 0x20A#16) 1 0)) (fun t => (t.pc, t.dt)) = some (0x204#16, 0#8) := by decide

theorem test_jp_last_address : after (run 0x1FFF r0) (fun t => t.pc) = some 0xFFF#16 := by decide

theorem test_call :
    after (run 0x2210 (timed (r0.setPc 0x204#16) 0 5)) (fun t => (t.slot 0, t.sp, t.pc, t.st)) =
      some (some 0x204#16, 1#5, 0x210#16, 4#8) := by decide

theorem test_call_last_slot :
    after (run 0x2300 (stacked (r0.setPc 0x250#16) 15 0)) (fun t => (t.slot 15, t.sp, t.pc)) =
      some (some 0x250#16, 16#5, 0x300#16) := by decide

theorem test_se_imm_taken : after (run 0x332A (r0.setReg 3 0x2A)) (fun t => t.pc) = some 0x204#16 := by decide

theorem test_se_imm_at_4094 :
    after (run 0x3F00 (r0.setPc 0xFFE#16)) (fun t => t.pc) = some 0x1002#16 := by decide

theorem test_sne_imm_equal :
    after (run 0x4000 (r0.setPc 0x300#16)) (fun t => t.pc) = some 0x302#16 := by decide

theorem test_sne_imm_taken :
    after (run 0x4000 ((r0.setPc 0x300#16).setReg 0 1)) (fun t => t.pc) = some 0x304#16 := by decide

theorem test_se_reg_taken :
    after (run 0x5120 ((r0.setReg 1 7).setReg 2 7)) (fun t => t.pc) = some 0x204#16 := by decide

theorem test_se_reg_not_taken :
    after (run 0x5120 ((r0.setReg 1 7).setReg 2 8)) (fun t => t.pc) = some 0x202#16 := by decide

theorem test_sne_reg_taken :
    after (run 0x9120 ((r0.setReg 1 7).setReg 2 8)) (fun t => t.pc) = some 0x204#16 := by decide

theorem test_sne_reg_same : after (run 0x9110 (r0.setReg 1 3)) (fun t => t.pc) = some 0x202#16 := by decide

theorem test_jp_v0 : after (run 0xB300 (r0.setReg 3 9)) (fun t => t.pc) = some 0x300#16 := by decide

theorem test_jp_v0_unreduced :
    after (run 0xBFFF (r0.setReg 0 0xFF)) (fun t => t.pc) = some 0x10FE#16 := by decide

theorem test_skp_any_nonzero :
    after (run 0xE29E (((r0.setPc 0x208#16).setReg 2 7).setKey 7 0x80)) (fun t => t.pc) = some 0x20C#16 := by decide

theorem test_skp_other_key :
    after (run 0xE29E (((r0.setPc 0x208#16).setReg 2 7).setKey 8 1)) (fun t => t.pc) = some 0x20A#16 := by decide

theorem test_sknp_released :
    after (run 0xE2A1 ((r0.setPc 0x208#16).setReg 2 7)) (fun t => t.pc) = some 0x20C#16 := by decide

theorem test_sknp_no_key : faultOf (run 0xE2A1 (r0.setReg 2 0xFF)) = some .keyIndexOutOfRange := by decide

/-! ## Immediates (2.4) -/

theorem test_ld_imm : after (run 0x6A7F r0) (fun t => (t.reg 10, t.reg 15)) = some (0x7F#8, 0#8) := by decide

theorem test_ld_imm_flag : after (run 0x6F01 r0) (fun t => t.reg 15) = some 1#8 := by decide

theorem test_add_imm_wraps :
    after (run 0x7AFF (r0.setReg 10 1)) (fun t => (t.reg 10, t.reg 15)) = some (0#8, 0#8) := by decide

theorem test_ld_i :
    after (run 0xAFFF (r0.setIndex 0x1234#16)) (fun t => t.index) = some 0x0FFF#16 := by decide

theorem test_rnd_supplied :
    after (run 0xC10F { r0 with randInput := [0xA7#8, 0x55#8] }) (fun t => (t.reg 1, t.randInput)) =
      some (0x07#8, [0x55#8]) := by decide

/-! ## ALU (2.5) -/

theorem test_ld_reg :
    after (run 0x8120 ((r0.setReg 2 0x12).setReg 15 5)) (fun t => (t.reg 1, t.reg 15)) = some (0x12#8, 5#8) := by decide

theorem test_or_reg :
    after (run 0x8121 (((r0.setReg 1 0xF0).setReg 2 0x0F).setReg 15 7)) (fun t => (t.reg 1, t.reg 15)) = some (0xFF#8, 7#8) := by decide

theorem test_and_reg :
    after (run 0x8122 ((r0.setReg 1 0xF0).setReg 2 0x3C)) (fun t => (t.reg 1, t.reg 2)) = some (0x30#8, 0x3C#8) := by decide

theorem test_xor_reg :
    after (run 0x8123 ((r0.setReg 1 0xFF).setReg 2 0x0F)) (fun t => (t.reg 1, t.reg 2)) = some (0xF0#8, 0x0F#8) := by decide

theorem test_xor_reg_same :
    after (run 0x8113 (r0.setReg 1 0x5A)) (fun t => t.reg 1) = some 0x00#8 := by decide

theorem test_add_reg_carry :
    after (run 0x8124 ((r0.setReg 1 0xFF).setReg 2 1)) (fun t => (t.reg 1, t.reg 15, t.reg 2)) = some (0#8, 1#8, 1#8) := by decide

theorem test_add_reg_flag_operand :
    after (run 0x8F14 ((r0.setReg 15 0xF0).setReg 1 0x20)) (fun t => t.reg 15) = some 0x10#8 := by decide

theorem test_sub_reg_equal :
    after (run 0x8125 ((r0.setReg 1 5).setReg 2 5)) (fun t => (t.reg 1, t.reg 15)) = some (0#8, 0#8) := by decide

theorem test_sub_reg_flag_operand :
    after (run 0x81F5 ((r0.setReg 1 5).setReg 15 3)) (fun t => (t.reg 1, t.reg 15)) = some (4#8, 1#8) := by decide

theorem test_shr_ignores_y :
    after (run 0x83A6 ((r0.setReg 3 5).setReg 10 0xF0)) (fun t => (t.reg 3, t.reg 15, t.reg 10)) = some (2#8, 1#8, 0xF0#8) := by decide

theorem test_shr_flag_operand :
    after (run 0x8F06 (r0.setReg 15 0xFF)) (fun t => t.reg 15) = some 0#8 := by decide

theorem test_subn_reg :
    after (run 0x8127 ((r0.setReg 1 2).setReg 2 5)) (fun t => (t.reg 1, t.reg 15)) = some (3#8, 1#8) := by decide

theorem test_subn_flag_operand :
    after (run 0x8F17 ((r0.setReg 15 2).setReg 1 5)) (fun t => t.reg 15) = some 4#8 := by decide

theorem test_shl :
    after (run 0x830E (r0.setReg 3 0x81)) (fun t => (t.reg 3, t.reg 15)) = some (2#8, 1#8) := by decide

theorem test_shl_flag_operand :
    after (run 0x8F0E (r0.setReg 15 0x41)) (fun t => t.reg 15) = some 0#8 := by decide

/-! ## Draw (2.6) -/

theorem test_drw_wraps :
    after (run 0xD012 (poke (((r0.setReg 0 63).setReg 1 31).setIndex 0x300#16) 0x300 [0xC0#8, 0x81#8]))
        (fun t => (decide (t.fb = (lit r0 [2047, 1984, 63, 6]).fb), t.reg 15)) = some (true, 0#8) := by decide +kernel

theorem test_drw_collides :
    after (run 0xD011 (lit (poke (r0.setIndex 0x300#16) 0x300 [0x81#8]) [7]))
        (fun t => (t.cell 0, t.cell 7, t.reg 15)) = some (true, false, 1#8) ∧
    after (run 0xD010 ((r0.setFlag true).setIndex 0xFFFF#16)) (fun t => (t.reg 15, t.pc)) = some (0#8, 0x202#16) := by decide +kernel

/-! ## Miscellaneous (2.7) -/

theorem test_ld_vx_dt :
    after (run 0xF107 (timed r0 4 0)) (fun t => (t.reg 1, t.dt)) = some (4#8, 3#8) := by decide

theorem test_ld_vx_k_lowest :
    after (run 0xF20A (((timed (r0.setPc 0x206#16) 3 0).setKey 7 1).setKey 9 1)) (fun t => (t.reg 2, t.dt, t.pc)) =
      some (7#8, 2#8, 0x208#16) := by decide

theorem test_ld_vx_k_pending :
    after (run 0xF20A ((timed (r0.setPc 0x206#16) 3 0).setReg 2 0xEE)) (fun t => (t.reg 2, t.dt, t.pc)) =
      some (0xEE#8, 3#8, 0x206#16) := by decide

theorem test_ld_dt_vx :
    after (run 0xF015 (timed (r0.setReg 0 5) 0 3)) (fun t => (t.dt, t.st)) = some (4#8, 2#8) := by decide

theorem test_ld_st_vx : after (run 0xF318 (r0.setReg 3 2)) (fun t => t.st) = some 1#8 := by decide

theorem test_add_i_past_memory :
    after (run 0xF11E ((r0.setIndex 0x0FFF#16).setReg 1 1)) (fun t => (t.index, t.reg 15)) = some (0x1000#16, 0#8) := by decide

theorem test_add_i_wraps :
    after (run 0xF11E ((r0.setIndex 0xFFFF#16).setReg 1 1)) (fun t => t.index) = some 0#16 := by decide

theorem test_ld_f : after (run 0xF129 (r0.setReg 1 10)) (fun t => t.index) = some 50#16 := by decide

theorem test_ld_f_out_of_range :
    after (run 0xF129 ((r0.setReg 1 16).setIndex 0x123#16)) (fun t => (t.index, t.pc)) = some (0x123#16, 0x202#16) := by decide

theorem test_ld_b_last_address :
    after (run 0xF033 ((r0.setIndex 0xFFD#16).setReg 0 123)) (fun t => t.bytes 0xFFD 3) =
      some [1#8, 2#8, 3#8] := by decide

theorem test_ld_b_fault :
    faultOf (run 0xF033 (r0.setIndex 0xFFE#16)) = some .dataAddressOutOfRange := by decide

theorem test_store_regs :
    after (run 0xF155 (((r0.setIndex 0x300#16).setReg 0 0xAA).setReg 1 0xBB))
        (fun t => (t.bytes 0x300 3, t.index)) = some ([0xAA#8, 0xBB#8, 0#8], 0x300#16) := by decide

theorem test_load_regs :
    after (run 0xF265 (poke ((r0.setIndex 0x300#16).setReg 3 0x77) 0x300 [2#8, 5#8, 5#8, 9#8]))
        (fun t => t.firstRegs 4) = some [2#8, 5#8, 5#8, 0x77#8] := by decide

theorem test_load_regs_font :
    after (run 0xFF65 r0) (fun t => t.firstRegs 16) = some [0xF0#8, 0x90#8, 0x90#8, 0x90#8, 0xF0#8, 0x20#8, 0x60#8,
      0x20#8, 0x20#8, 0x70#8, 0xF0#8, 0x10#8, 0xF0#8, 0x80#8, 0xF0#8, 0xF0#8] := by decide

/-- Writing what an unlisted address reads as removes the entry. -/
theorem test_memory_form_is_kept :
    after (run 0xF055 (poke (r0.setIndex 0x300#16) 0x300 [1#8])) (fun t => t.mem) =
      some [(0x200, 0xF0#8), (0x201, 0x55#8)] := by decide

/-! ## Load (2.8) -/

theorem test_load_one_byte : decode (r0.load [0x12#8]).fetchWord = .ok (.jp 0x200#12) := by decide

/-! ## Hypotheses: a state and operands that meet those of each statement, at the ends of their ranges -/

theorem test_witness_EveryStepKeepsInvariant :
    ∃ s t : State, s.Inv ∧ step s = .next t := ⟨r0.withFetchWord 16 0x1234, _, by decide, rfl⟩

theorem test_witness_HostActionsKeepInvariant :
    (∀ s, (Session.ready r0).state? = some s → s.Inv) ∧
    ∃ d, Session.perform (.load (List.replicate 2 0x12#8)) (.ready r0) = .next (.ok, d) ∧ d.state? ≠ none := by
  refine ⟨fun s h => ?_, _, rfl, by simp [Session.state?]⟩
  cases h; decide

theorem test_witness_EncodeInvertsDecode : decode 0xD125#16 = .ok (.drw 1 2 5) := by decide

theorem test_witness_StepRunsDecodedInstruction :
    (r0.setPc 4094#16).pc.toNat + 1 < r0.params.fetchLimit.val ∧
    decode ((poke (r0.setPc 4094#16) 4094 [0x12#8, 0x34#8]).byte 4094 ++ (poke (r0.setPc 4094#16) 4094 [0x12#8, 0x34#8]).byte 4095) =
      .ok (.jp 0x234#12) := by decide

theorem test_witness_EveryCycleLatchesItsWord : ∃ t, step r0 = .next t := ⟨_, rfl⟩

theorem test_witness_GuardRefusesFetchOutsideMemory :
    (r0.setPc 4095#16).pc.toNat + 1 ≥ r0.params.fetchLimit.val ∧
    ¬ (r0.setPc 4094#16).pc.toNat + 1 ≥ r0.params.fetchLimit.val := by decide

theorem test_witness_UnimplementedWordIsReportedNoOp :
    r0.pc.toNat + 1 < r0.params.fetchLimit.val ∧ decode r0.fetchWord = .error (.unimplementedOpcode r0.fetchWord) := by decide

theorem test_witness_DefinedInstructionReportsOk :
    decode (r0.withFetchWord 16 0xF20A).fetchWord = .ok (.ldVxK 2) ∧
    ∃ t, step (r0.withFetchWord 16 0xF20A) = .next t := ⟨by decide, _, rfl⟩

theorem test_witness_ReturnPopsAndAdvances_1 :
    1 ≤ (stacked r0 1 0x204#16).sp.toNat ∧ (stacked r0 1 0x204#16).sp.toNat ≤ 16 ∧
    (stacked r0 1 0x204#16).slot ((stacked r0 1 0x204#16).sp.toNat - 1) = some 0x204#16 := by decide

theorem test_witness_ReturnPopsAndAdvances_16 :
    1 ≤ (stacked r0 16 0x204#16).sp.toNat ∧ (stacked r0 16 0x204#16).sp.toNat ≤ 16 ∧
    (stacked r0 16 0x204#16).slot ((stacked r0 16 0x204#16).sp.toNat - 1) = some 0#16 := by decide

/-- Of CallThenReturn too. -/
theorem test_witness_CallPushesItsOwnAddress :
    (stacked r0 0 0).sp.toNat < 16 ∧ (stacked r0 15 0).sp.toNat < 16 := by decide

theorem test_witness_StackBoundsFault : (stacked r0 16 0).sp = 16#5 ∧ (stacked r0 0 0).sp = 0#5 := by decide

theorem test_witness_SkipOnKey :
    ((r0.setReg 1 15).reg 1).toNat = (15 : Idx).val ∧ (r0.reg 1).toNat = (0 : Idx).val ∧
    (r0.setKey 15 1).key 15 ≠ 0 ∧ r0.key 15 = 0 := by decide

theorem test_witness_KeyNumberAboveFifteenFaults :
    ((r0.setReg 1 16).reg 1).toNat ≥ 16 ∧ ((r0.setReg 1 255).reg 1).toNat ≥ 16 := by decide

theorem test_witness_RandomByteIsMasked : { r0 with randInput := [0xFF#8] }.randInput = 0xFF#8 :: [] := rfl

/-- Of SkipOnImmediate, SkipOnRegisters, AddWithCarry, SubtractNotBorrow and ShiftByOne. -/
theorem test_witness_ClausesOfSkipsAndFlags :
    (1 : Idx) ≠ 15 ∧ r0.reg 1 = 0#8 ∧ (r0.setReg 1 1).reg 1 ≠ 0#8 := by decide

/-- Of DrawTwiceRestoresScreen too: the last sprite of 15 rows, and no row at any `I`. -/
theorem test_witness_DrawInvertsCellsUnderSprite :
    (0 : Idx) ≠ 15 ∧ (14 : Idx) ≠ 15 ∧
    ((15 : Idx).val ≥ 1 → (r0.setIndex 4081#16).index.toNat + (15 : Idx).val - 1 ≤ 4095) ∧
    ((0 : Idx).val ≥ 1 → (r0.setIndex 0xFFFF#16).index.toNat + (0 : Idx).val - 1 ≤ 4095) := by decide

/-- The first bit of glyph 0 lies over cell 0, lit or dark; with no row nothing does. -/
theorem test_witness_DrawCells :
    Claims.UnderSprite r0 0 1 1 0 ∧ (lit r0 [0]).cell 0 = true ∧ r0.cell 0 = false ∧ ¬ Claims.UnderSprite r0 0 1 0 0 := by
  refine ⟨⟨0, 0, by decide, by decide, by decide, by decide⟩, by decide +kernel, by decide +kernel, ?_⟩
  rintro ⟨i, j, hi, -⟩; omega

theorem test_witness_DrawRefusesFlagCoordinate :
    ((15 : Idx) = 15 ∨ (0 : Idx) = 15) ∧ ((0 : Idx) = 15 ∨ (15 : Idx) = 15) ∧
    refusalOf (exec (.drw 15 0 1) r0) = some .drawFlagCoordinate := by decide

theorem test_witness_KeyWaitRecordsLeastKey :
    (r0.setKey 0 1).key 0 ≠ 0 ∧ (∀ j, j < 0 → (r0.setKey 0 1).key j = 0) ∧
    (r0.setKey 15 1).key 15 ≠ 0 ∧ (∀ j, j < 15 → (r0.setKey 15 1).key j = 0) ∧ ∀ k, r0.key k = 0 := by decide

theorem test_witness_PendingKeyWaitRepeats :
    (r0.withFetchWord 16 0xF20A).awaitingKey ∧ 1 ≤ 1 := ⟨⟨by decide, ⟨2, by decide⟩, by decide⟩, by decide⟩

theorem test_witness_GlyphAddress :
    ((r0.setReg 1 15).reg 1).toNat < 16 ∧ ¬ ((r0.setReg 1 16).reg 1).toNat < 16 := by decide

theorem test_witness_StoreDecimalDigits : (r0.setIndex 4093#16).index.toNat + 2 ≤ 4095 := by decide

/-- Of LoadRegisterBlock too. -/
theorem test_witness_StoreRegisterBlock :
    (r0.setIndex 4080#16).index.toNat + (15 : Idx).val ≤ 4095 := by decide

theorem test_witness_StoreThenLoadRestores :
    ∃ t, exec (.storeRegs 15) (r0.setIndex 4080#16) = .next t ∧ t.index = t.index ∧ ∀ a, t.byte a = t.byte a := ⟨_, rfl, rfl, fun _ => rfl⟩

theorem test_witness_StoreSeenByNextFetch :
    ∃ t, exec (.storeRegs 1) (r0.setIndex 0x202#16) = .next t ∧ (1 : Idx).val = (0 : Idx).val + 1 ∧ (1 : Idx) ≤ 1 ∧
    t.pc.toNat = (r0.setIndex 0x202#16).index.toNat + (0 : Idx).val := ⟨_, rfl, by decide⟩

theorem test_witness_DataAddressOutsideMemoryFaults :
    (r0.setIndex 4094#16).index.toNat + 2 > 4095 ∧ (r0.setIndex 4096#16).index.toNat + (0 : Idx).val > 4095 ∧
    (0 : Idx) ≠ 15 ∧ (1 : Idx).val ≥ 1 ∧ (r0.setIndex 4096#16).index.toNat + (1 : Idx).val - 1 > 4095 := by decide

theorem test_witness_StopsAreTheListedCases :
    faultOf (exec (.call 0#12) (stacked r0 16 0)) = some .stackOverflow ∧ faultOf (exec .ret r0) = some .stackUnderflow ∧
    faultOf (exec .ret (stacked r0 17 0)) = some .stackSlotAbsent ∧
    faultOf (exec (.skp 0) (r0.setReg 0 16)) = some .keyIndexOutOfRange ∧
    faultOf (exec (.loadRegs 0) (r0.setIndex 4096#16)) = some .dataAddressOutOfRange ∧
    refusalOf (exec (.drw 0 15 0) r0) = some .drawFlagCoordinate := by decide

/-- Of OnlyDestinationRegistersChange and CompletionClasses too. -/
theorem test_witness_OnlyListedWritersWrite : ∃ t, exec (.loadRegs 3) r0 = .next t := ⟨_, rfl⟩

theorem test_witness_OnlyDestinationRegistersChange :
    ¬ Claims.IsDestination 4 (.loadRegs 3) ∧ ¬ Claims.IsDestination 15 (.addImm 3 0#8) := by
  unfold Claims.IsDestination; decide

theorem test_witness_CompletionClasses :
    Claims.Pending r0 (.ldVxK 1) ∧ ¬ Claims.Pending (r0.setKey 15 1) (.ldVxK 1) ∧ ¬ Claims.Pending r0 .cls := by
  refine ⟨fun k => (by decide : ∀ k, r0.key k = 0) k, ?_, fun h => h⟩
  intro h; exact absurd (h 15) (by decide)

theorem test_witness_SafeStatesStep : r0.Safe := ⟨by decide, fun i h => by cases h⟩

theorem test_witness_FinishedProgramsStayFinished :
    (r0.withFetchWord 16 0x1200).finished := ⟨by decide, 0x200#12, by decide, by decide⟩

theorem test_witness_LoadPlacesImage :
    r0.pc.toNat + (List.replicate 3584 0x12#8).length ≤ 4096 ∧ r0.pc.toNat + ([] : List Byte).length ≤ 4096 := by
  rw [List.length_replicate]; decide

theorem test_witness_FailedLoadIsNotRunnable :
    r0.pc.toNat + (List.replicate 3585 0x12#8).length > 4096 := by
  rw [List.length_replicate]; decide

theorem test_witness_LifecycleRefusals :
    HostAction.advance ≠ .init ∧ HostAction.load [] ≠ .init ∧
    (∃ r d, Session.perform .advance (.ready r0) = .next (r, d)) ∧
    (∃ r d, Session.perform .advance (.running r0) = .next (r, d)) ∧
    ∃ r d, Session.perform (.writeKey 0 1) (.notRunnable r0) = .next (r, d) := ⟨by decide, by decide, ⟨_, _, rfl⟩, ⟨_, _, rfl⟩, _, _, rfl⟩

theorem test_witness_InitGivesResetState :
    (Session.beforeInit Params.default).state? = none ∧ (Session.running r0).state? = some r0 := ⟨rfl, rfl⟩

end Sys2Proof.Tests
end

section
/-! ### The guards and the stopping instructions, inverted (R144)

What an instruction that can stop has done where it answers a next state. -/

namespace Sys2Proof.Machine

variable {s t : State}

theorem withData_next {len : Nat} {body : State → Result} (h : withData s len body = .next t) :
    (len = 0 ∨ s.index.toNat + len ≤ 4096) ∧ body s = .next t := by
  rcases withData_cases s len body with ⟨-, -, e⟩ | ⟨hd, e⟩
  · cases e.symm.trans h
  · exact ⟨hd, e.symm.trans h⟩

theorem withKey_next {v : Byte} {body : Idx → Result} (h : withKey v body = .next t) :
    ∃ k : Idx, v.toNat = k.val ∧ body k = .next t := by
  by_cases hv : v.toNat < 16
  · exact ⟨⟨v.toNat, hv⟩, rfl, (withKey_ok v body hv).symm.trans h⟩
  · cases (withKey_fault v body (Nat.not_lt.mp hv)).symm.trans h

theorem exec_skp_next {x : Idx} (h : exec (.skp x) s = .next t) :
    ∃ k : Idx, (s.reg x).toNat = k.val ∧ t = s.completeSkip (s.pressed k) := by
  change execSkp x s = _ at h
  unfold execSkp at h
  obtain ⟨k, hk, e⟩ := withKey_next h
  cases e
  exact ⟨k, hk, rfl⟩

theorem exec_sknp_next {x : Idx} (h : exec (.sknp x) s = .next t) :
    ∃ k : Idx, (s.reg x).toNat = k.val ∧ t = s.completeSkip (!s.pressed k) := by
  change execSknp x s = _ at h
  unfold execSknp at h
  obtain ⟨k, hk, e⟩ := withKey_next h
  cases e
  exact ⟨k, hk, rfl⟩

theorem exec_ldB_next {x : Idx} (h : exec (.ldB x) s = .next t) :
    s.index.toNat + 3 ≤ 4096 ∧ t = (s.store s.index.toNat (bcdDigits (s.reg x))).complete := by
  change execLdB x s = _ at h
  unfold execLdB at h
  obtain ⟨hd, e⟩ := withData_next h
  cases e
  exact ⟨hd.resolve_left (by decide), rfl⟩

theorem exec_storeRegs_next {x : Idx} (h : exec (.storeRegs x) s = .next t) :
    s.index.toNat + (x.val + 1) ≤ 4096 ∧
      t = (s.store s.index.toNat (s.firstRegs (x.val + 1))).complete := by
  change execStoreRegs x s = _ at h
  unfold execStoreRegs at h
  obtain ⟨hd, e⟩ := withData_next h
  cases e
  exact ⟨hd.resolve_left (Nat.succ_ne_zero _), rfl⟩

theorem exec_loadRegs_next {x : Idx} (h : exec (.loadRegs x) s = .next t) :
    s.index.toNat + (x.val + 1) ≤ 4096 ∧
      t = (s.setRegs (s.bytes s.index.toNat (x.val + 1))).complete := by
  change execLoadRegs x s = _ at h
  unfold execLoadRegs at h
  obtain ⟨hd, e⟩ := withData_next h
  cases e
  exact ⟨hd.resolve_left (Nat.succ_ne_zero _), rfl⟩

theorem exec_ret_next (h : exec .ret s = .next t) :
    ∃ v, 1 ≤ s.sp.toNat ∧ s.sp.toNat ≤ 16 ∧ s.slot (s.sp.toNat - 1) = some v ∧
      t = (s.dropTop.setPc v).complete := by
  rcases execRet_cases s with ⟨-, e⟩ | ⟨-, e⟩ | ⟨v, h1, h16, hv, e⟩
  · cases e.symm.trans h
  · cases e.symm.trans h
  · cases e.symm.trans h
    exact ⟨v, h1, h16, hv, rfl⟩

theorem exec_call_next {nnn : Addr} (h : exec (.call nnn) s = .next t) :
    s.sp.toNat < 16 ∧ t = ((s.push s.pc).setPc (addrToWord nnn)).tick := by
  rcases execCall_cases nnn s with ⟨-, e⟩ | ⟨hsp, e⟩
  · cases e.symm.trans h
  · cases e.symm.trans h
    exact ⟨hsp, rfl⟩

theorem exec_ldVxK_next {x : Idx} (h : exec (.ldVxK x) s = .next t) :
    ((∀ k, s.key k = 0) ∧ t = s) ∨
    (∃ k, s.key k ≠ 0 ∧ t = (s.setReg x (BitVec.ofNat 8 k.val)).complete) := by
  rcases execLdVxK_cases x s with ⟨hk, e⟩ | ⟨k, hk, -, e⟩
  · cases e.symm.trans h
    exact .inl ⟨hk, rfl⟩
  · cases e.symm.trans h
    exact .inr ⟨k, hk, rfl⟩

theorem exec_drw_next {x y n : Idx} (h : exec (.drw x y n) s = .next t) :
    ∃ c : Canvas, t = ((s.setFb c.fb).setFlag c.hit).complete := by
  rcases execDrw_cases x y n s with ⟨-, e⟩ | ⟨-, -, -, -, e⟩ | ⟨-, -, -, c, -, e⟩
  · cases e.symm.trans h
  · cases e.symm.trans h
  · cases e.symm.trans h
    exact ⟨c, rfl⟩

end Sys2Proof.Machine
end

section
/-! ### The invariant, operation by operation (R14, R16) -/

namespace Sys2Proof.Machine

/-- The clauses of the invariant in which the program counter has no part: the completion of an
instruction moves `pc` alone, so a meaning's own writes are judged by these. -/
def State.InvBesidePc (s : State) : Prop :=
  Memory.wf s.params.font s.mem = true ∧ s.sp.toNat ≤ Config.stackDepth ∧
    ∀ k : Idx, (s.stack[k]).toNat ≤ maxExecPc

theorem State.inv_iff (s : State) : s.Inv ↔ s.InvBesidePc ∧ s.pc.toNat ≤ maxPc := by
  unfold State.Inv State.InvBesidePc
  tauto

variable {s t u : State}

theorem State.Inv.besidePc (h : s.Inv) : s.InvBesidePc := (s.inv_iff.mp h).1

/-- A return address is at most 4094, wherever it is read. -/
theorem State.InvBesidePc.slot_le (h : s.InvBesidePc) {k : Nat} {v : Word} (hk : k < 16)
    (hv : s.slot k = some v) : v.toNat ≤ maxExecPc := by
  obtain ⟨-, -, hstack⟩ := h
  rw [s.slot_eq_some k hk, Option.some.injEq] at hv
  exact hv ▸ hstack ⟨k, hk⟩

theorem State.InvBesidePc.store (h : s.InvBesidePc) {a : Nat} {bs : List Byte}
    (ha : a + bs.length ≤ Config.memSize) : (s.store a bs).InvBesidePc := by
  obtain ⟨hmem, hsp, hstack⟩ := h
  exact ⟨s.wf_store a bs ha hmem, hsp, hstack⟩

theorem State.InvBesidePc.push (h : s.InvBesidePc) {v : Word} (hsp : s.sp.toNat < 16)
    (hv : v.toNat ≤ maxExecPc) : (s.push v).InvBesidePc := by
  obtain ⟨hmem, -, hstack⟩ := h
  refine ⟨hmem, ?_, fun k => ?_⟩
  · rw [s.push_sp_toNat v hsp]
    exact hsp
  · have hslot := s.slot_push v k.val hsp
    rw [State.slot_eq_some _ _ k.isLt, s.slot_eq_some _ k.isLt] at hslot
    change ((s.push v).stack[k.val]).toNat ≤ maxExecPc
    split at hslot <;> rw [Option.some.inj hslot]
    · exact hv
    · exact hstack k

theorem State.InvBesidePc.dropTop (h : s.InvBesidePc) (hsp : 1 ≤ s.sp.toNat) :
    s.dropTop.InvBesidePc := by
  obtain ⟨hmem, hdepth, hstack⟩ := h
  have hne : s.sp ≠ 0#5 := fun e => by simp [e] at hsp
  refine ⟨hmem, ?_, hstack⟩
  rw [s.dropTop_sp_toNat hne]
  omega

/-! The three completions (R70 to R72): each is entered with `pc` in the range it can advance from. -/

theorem State.InvBesidePc.tick_inv (h : u.InvBesidePc) (hpc : u.pc.toNat ≤ maxPc) : u.tick.Inv :=
  u.tick.inv_iff.mpr ⟨h, hpc⟩

theorem State.InvBesidePc.complete_inv (h : u.InvBesidePc) (hpc : u.pc.toNat ≤ maxExecPc) :
    u.complete.Inv := by
  refine u.complete.inv_iff.mpr ⟨h, ?_⟩
  rw [State.complete_pc, toNat_add_two]
  unfold maxExecPc at hpc
  unfold maxPc
  omega

theorem State.completeSkip_pc_toNat (s : State) (c : Bool) :
    (s.completeSkip c).pc.toNat = (s.pc.toNat + if c then 4 else 2) % 65536 := by
  cases c <;> simp [BitVec.toNat_add]

theorem State.InvBesidePc.completeSkip_inv (h : u.InvBesidePc) (c : Bool) (hpc : u.pc.toNat ≤ maxExecPc) :
    (u.completeSkip c).Inv := by
  refine (u.completeSkip c).inv_iff.mpr ⟨?_, ?_⟩
  · cases c <;> exact h
  · rw [State.completeSkip_pc_toNat]
    unfold maxExecPc at hpc
    unfold maxPc
    split <;> omega

/-! ### The invariant over one instruction and one step -/

theorem jp_target_le (nnn : Addr) : (addrToWord nnn).toNat ≤ maxPc := by
  have hn := nnn.isLt
  rw [addrToWord_toNat]
  unfold maxPc
  omega

theorem jpV0_target_toNat (nnn : Addr) (v : Byte) :
    (addrToWord nnn + byteToWord v).toNat = nnn.toNat + v.toNat := by
  have hn := nnn.isLt
  have hv := v.isLt
  rw [BitVec.toNat_add, addrToWord_toNat, byteToWord_toNat]
  omega

theorem jpV0_target_le (nnn : Addr) (v : Byte) : (addrToWord nnn + byteToWord v).toNat ≤ maxPc := by
  have hn := nnn.isLt
  have hv := v.isLt
  rw [jpV0_target_toNat]
  unfold maxPc
  omega

/-- An instruction at a `pc` that a fetch reaches keeps the invariant. -/
theorem State.Inv.exec (hs : s.Inv) (hpc : s.pc.toNat ≤ maxExecPc) {i : Instr}
    (h : exec i s = .next t) : t.Inv := by
  have hb := hs.besidePc
  cases i with
  | ret =>
    obtain ⟨v, h1, h16, hv, rfl⟩ := exec_ret_next h
    exact State.InvBesidePc.complete_inv (u := s.dropTop.setPc v) (hb.dropTop h1)
      (hb.slot_le (by omega) hv)
  | call nnn =>
    obtain ⟨hsp, rfl⟩ := exec_call_next h
    exact State.InvBesidePc.tick_inv (u := (s.push s.pc).setPc (addrToWord nnn)) (hb.push hsp hpc)
      (jp_target_le nnn)
  | jp nnn => cases h; exact State.InvBesidePc.tick_inv (u := s.setPc _) hb (jp_target_le nnn)
  | jpV0 nnn => cases h; exact State.InvBesidePc.tick_inv (u := s.setPc _) hb (jpV0_target_le nnn _)
  | seImm | sneImm | seReg | sneReg => cases h; exact hb.completeSkip_inv _ hpc
  | skp x =>
    obtain ⟨k, -, rfl⟩ := exec_skp_next h
    exact hb.completeSkip_inv _ hpc
  | sknp x =>
    obtain ⟨k, -, rfl⟩ := exec_sknp_next h
    exact hb.completeSkip_inv _ hpc
  | ldB x =>
    obtain ⟨hd, rfl⟩ := exec_ldB_next h
    exact (hb.store (by rwa [length_bcdDigits])).complete_inv hpc
  | storeRegs x =>
    obtain ⟨hd, rfl⟩ := exec_storeRegs_next h
    exact (hb.store (by rwa [State.length_firstRegs])).complete_inv hpc
  | loadRegs x =>
    obtain ⟨-, rfl⟩ := exec_loadRegs_next h
    exact State.InvBesidePc.complete_inv (u := s.setRegs _) hb hpc
  | drw x y n =>
    obtain ⟨c, rfl⟩ := exec_drw_next h
    exact State.InvBesidePc.complete_inv (u := (s.setFb _).setFlag _) hb hpc
  | ldVxK x =>
    rcases exec_ldVxK_next h with ⟨-, rfl⟩ | ⟨k, -, rfl⟩
    · exact hs
    · exact State.InvBesidePc.complete_inv (u := s.setReg _ _) hb hpc
  | ldF x =>
    cases h
    split
    · exact State.InvBesidePc.complete_inv (u := s.setIndex _) hb hpc
    · exact hb.complete_inv hpc
  | _ => cases h; exact State.InvBesidePc.complete_inv hb hpc

/-- One cycle keeps the invariant: the guard puts `pc` where a fetch reaches it. -/
theorem State.Inv.step (hs : s.Inv) (h : step s = .next t) : t.Inv := by
  obtain ⟨hguard, hcase⟩ := step_cases h
  have hpc : s.pc.toNat ≤ maxExecPc := by
    have := s.fetch_inside hguard
    unfold maxExecPc
    omega
  rcases hcase with ⟨i, -, hexec⟩ | ⟨-, -, rfl⟩
  · exact State.Inv.exec (s := s.fetched) hs hpc hexec
  · exact State.InvBesidePc.complete_inv (u := s.fetched) hs.besidePc hpc

/-- Settles O3, by the invariant's step lemma. -/
theorem everyStepKeepsInvariant : Obligations.EveryStepKeepsInvariant :=
  fun _ _ hs h => hs.step h

end Sys2Proof.Machine
end

section
/-! ### The session, operation by operation (R24, R25, R160 to R163) -/

namespace Sys2Proof.Machine

open Sys2Proof.Claims

variable {s t : State}

/-! #### init() and reset -/

theorem State.resetWith_inv (p : Params) : (State.resetWith p).Inv := by
  have hpc : (State.resetWith p).pc.toNat ≤ maxPc := by
    change Config.progBase.toNat ≤ maxPc
    decide
  refine (State.inv_iff _).mpr ⟨⟨Memory.wf_nil, Nat.zero_le _, fun k => ?_⟩, hpc⟩
  change ((Vector.replicate 16 0#16)[k.val]).toNat ≤ maxExecPc
  rw [Vector.getElem_replicate]
  exact Nat.zero_le _

theorem State.init_inv (s : State) : s.init.Inv := State.resetWith_inv s.params

/-- A font byte at 0..79, 0 above (R23, R33). -/
theorem resetByte_font (font : Font) {a : Nat} (h : a < 80) : resetByte font a = font[a] := by
  simp [resetByte, h]

theorem resetByte_above (font : Font) {a : Nat} (h : 80 ≤ a) : resetByte font a = 0#8 := by
  simp [resetByte, Vector.getElem?_eq_none h]

theorem State.resetWith_byte (p : Params) (a : Nat) :
    (State.resetWith p).byte a = resetByte p.font a := rfl

theorem kept_refl (s : State) (m : Member) : Kept s s m := by
  cases m with
  | regs | memory | stack | screen | keys => exact fun _ => rfl
  | timers | random => exact ⟨rfl, rfl⟩
  | index | pc | sp | opc | params => rfl

/-- `init()` gives the reset state but for the input `RAND` (R22, R23). -/
theorem State.unchanged_init (s : State) : Unchanged [.random] (State.resetWith s.params) s.init := by
  intro m hm
  cases m with
  | random => exact absurd (List.mem_singleton_self _) hm
  | regs | memory | stack | screen | keys => exact fun _ => rfl
  | timers => exact ⟨rfl, rfl⟩
  | index | pc | sp | opc | params => rfl

/-! #### A key write -/

theorem State.key_setKey (s : State) (j k : Idx) (v : Nat) :
    (s.setKey k v).key j = if j = k then v else s.key j := by
  simp only [State.key, State.setKey_keys, Fin.getElem_fin, Vector.getElem_set, Fin.ext_iff, eq_comm]

theorem State.unchanged_setKey (s : State) (k : Idx) (v : Nat) : Unchanged [.keys] s (s.setKey k v) := by
  intro m hm
  cases m with
  | keys => exact absurd (List.mem_singleton_self _) hm
  | regs | memory | stack | screen => exact fun _ => rfl
  | timers | random => exact ⟨rfl, rfl⟩
  | index | pc | sp | opc | params => rfl

/-! #### load -/

/-- A load, whole or in part, writes memory and the draw counter alone, and memory stays canonical. -/
theorem State.Inv.load (hs : s.Inv) (image : List Byte) : (s.load image).Inv := by
  obtain ⟨hb, hpc⟩ := s.inv_iff.mp hs
  by_cases hfit : s.pc.toNat + image.length ≤ 4096
  · rw [s.load_of_fits image hfit]
    exact (State.inv_iff _).mpr ⟨hb.store hfit, hpc⟩
  · rw [s.load_of_overflow image (Nat.lt_of_not_le hfit)]
    obtain ⟨hmem, hsp, hstack⟩ := hb
    exact (State.inv_iff _).mpr ⟨⟨Memory.wf_loadPart image _ _ hmem, hsp, hstack⟩, hpc⟩

/-! #### advance() -/

/-- A cycle that reports has stepped, or the guard has refused it and nothing changed (R66, R75). -/
theorem advance_next {r : Report} (h : advance s = .next (r, t)) : step s = .next t ∨ t = s := by
  unfold advance at h
  split at h
  · rename_i u hu
    cases h
    exact .inl hu
  · cases h
    exact .inr rfl
  · cases h
  · cases h

theorem State.Inv.advance (hs : s.Inv) {r : Report} (h : advance s = .next (r, t)) : t.Inv := by
  rcases advance_next h with hstep | rfl
  · exact hs.step hstep
  · exact hs

/-- A reported cycle leaves the session running (R163). -/
theorem Session.runCycle_next {r : Report} {d : Session} (h : Session.runCycle s = .next (r, d)) :
    ∃ t, d = .running t ∧ Machine.advance s = .next (r, t) := by
  unfold Session.runCycle at h
  split at h
  · rename_i r' u hu
    cases h
    exact ⟨u, rfl, hu⟩
  · cases h
  · cases h

/-! #### Sessions -/

/-- The state of the session, where it has one, has the invariant. -/
def Session.Inv (c : Session) : Prop := ∀ s, c.state? = some s → s.Inv

@[simp] theorem Session.inv_beforeInit (p : Params) : (Session.beforeInit p).Inv := by
  intro s h; cases h

@[simp] theorem Session.inv_ready (s : State) : (Session.ready s).Inv ↔ s.Inv :=
  ⟨fun h => h s rfl, fun h _ e => Option.some.inj e ▸ h⟩

@[simp] theorem Session.inv_running (s : State) : (Session.running s).Inv ↔ s.Inv :=
  ⟨fun h => h s rfl, fun h _ e => Option.some.inj e ▸ h⟩

@[simp] theorem Session.inv_notRunnable (s : State) : (Session.notRunnable s).Inv ↔ s.Inv :=
  ⟨fun h => h s rfl, fun h _ e => Option.some.inj e ▸ h⟩

/-- A write of the host's that keeps the invariant of states keeps that of sessions. -/
theorem Session.Inv.update {c : Session} (hc : c.Inv) {f : State → State} (hf : ∀ s, s.Inv → (f s).Inv) :
    (c.update f).Inv := by
  cases c with
  | beforeInit p => exact Session.inv_beforeInit p
  | ready s => exact (Session.inv_ready _).mpr (hf s ((Session.inv_ready s).mp hc))
  | running s => exact (Session.inv_running _).mpr (hf s ((Session.inv_running s).mp hc))
  | notRunnable s => exact (Session.inv_notRunnable _).mpr (hf s ((Session.inv_notRunnable s).mp hc))

theorem Session.Inv.runCycle (hs : s.Inv) {r : Report} {d : Session}
    (h : Session.runCycle s = .next (r, d)) : d.Inv := by
  obtain ⟨t, rfl, ht⟩ := Session.runCycle_next h
  exact (Session.inv_running t).mpr (hs.advance ht)

variable {c d : Session} {r : Report}

/-- A load is accepted in a ready session alone (R161). -/
theorem Session.perform_load_next {image : List Byte} (h : Session.perform (.load image) c = .next (r, d)) :
    ∃ s, c = .ready s ∧ (d = .running (s.load image) ∨ d = .notRunnable (s.load image)) := by
  cases c with
  | ready s =>
    refine ⟨s, rfl, ?_⟩
    simp only [Session.perform] at h
    split at h
    · cases h; exact .inl rfl
    · cases h; exact .inr rfl
  | beforeInit p | running s | notRunnable s => cases h

/-- A cycle is accepted in a ready and in a running session (R162, R163). -/
theorem Session.perform_advance_next (h : Session.perform .advance c = .next (r, d)) :
    ∃ s, (c = .ready s ∨ c = .running s) ∧ Session.runCycle s = .next (r, d) := by
  cases c with
  | ready s => exact ⟨s, .inl rfl, h⟩
  | running s => exact ⟨s, .inr rfl, h⟩
  | beforeInit p | notRunnable s => cases h

theorem Session.perform_writeKey_next {k : Idx} {v : Nat}
    (h : Session.perform (.writeKey k v) c = .next (r, d)) : d = c.update (fun s => s.setKey k v) := by
  cases c with
  | beforeInit p => cases h
  | ready s | running s | notRunnable s => cases h; rfl

theorem Session.perform_supplyRand_next {b : Byte}
    (h : Session.perform (.supplyRand b) c = .next (r, d)) :
    d = c.update (fun s => { s with randInput := s.randInput ++ [b] }) := by
  cases c with
  | beforeInit p => cases h
  | ready s | running s | notRunnable s => cases h; rfl

/-- Every operation and write of the host keeps the invariant of the session. -/
theorem Session.Inv.perform (hc : c.Inv) {a : HostAction} (h : Session.perform a c = .next (r, d)) :
    d.Inv := by
  cases a with
  | init =>
    cases c with
    | beforeInit p => cases h; exact (Session.inv_ready _).mpr (State.resetWith_inv p)
    | ready s | running s | notRunnable s => cases h; exact (Session.inv_ready _).mpr s.init_inv
  | load image =>
    obtain ⟨s, rfl, rfl | rfl⟩ := Session.perform_load_next h
    · exact (Session.inv_running _).mpr (((Session.inv_ready s).mp hc).load image)
    · exact (Session.inv_notRunnable _).mpr (((Session.inv_ready s).mp hc).load image)
  | advance =>
    obtain ⟨s, rfl | rfl, hrun⟩ := Session.perform_advance_next h
    · exact Session.Inv.runCycle ((Session.inv_ready s).mp hc) hrun
    · exact Session.Inv.runCycle ((Session.inv_running s).mp hc) hrun
  | writeKey k v => exact Session.perform_writeKey_next h ▸ hc.update fun _ hs => hs
  | supplyRand b => exact Session.perform_supplyRand_next h ▸ hc.update fun _ hs => hs

/-- Settles O4, by the session's step lemma. -/
theorem hostActionsKeepInvariant : Obligations.HostActionsKeepInvariant :=
  fun _ _ _ _ hc h => Session.Inv.perform hc h

/-! #### The statements about reset, `init()` and key writes -/

/-- Settles O1: memory reads as the reset contents, and every other member is a literal of `resetWith`. -/
theorem resetValues : Obligations.ResetValues := by
  intro p
  refine ⟨fun a h => ?_, fun a h => ?_, fun x => ?_, rfl, rfl, fun k hk => ?_, rfl, fun k _ => ?_, rfl, rfl,
    fun k => ?_, rfl, rfl⟩
  · rw [State.resetWith_byte, resetByte_font _ h]
  · rw [State.resetWith_byte, resetByte_above _ h]
  · exact Vector.getElem_replicate x.isLt
  · rw [State.slot_eq_some _ k hk]
    exact congrArg some (Vector.getElem_replicate hk)
  · exact BitVec.getLsbD_zero
  · exact Vector.getElem_replicate k.isLt

/-- Settles O2: the defaults are one choice of the parameters. -/
theorem resetSatisfiesInvariant : Obligations.ResetSatisfiesInvariant :=
  ⟨State.resetWith_inv Params.default, State.resetWith_inv⟩

/-- Settles O55: a session without a state gets `resetWith`, another one `init` of its state. -/
theorem initGivesResetState : Obligations.InitGivesResetState := by
  intro c
  cases c with
  | beforeInit p => exact ⟨State.resetWith p, rfl, fun m _ => kept_refl _ m, fun s h => nomatch h⟩
  | ready s | running s | notRunnable s =>
    refine ⟨s.init, rfl, s.unchanged_init, fun u hu => ?_⟩
    cases hu
    exact ⟨rfl, rfl⟩

/-- Settles O59: the three sessions with a state write the same slot. -/
theorem hostWritesOneKey : Obligations.HostWritesOneKey := by
  intro s k v
  refine ⟨s.setKey k v, rfl, rfl, rfl, ?_, fun j hj => ?_, s.unchanged_setKey k v⟩
  · rw [State.key_setKey, if_pos rfl]
  · rw [State.key_setKey, if_neg hj]

end Sys2Proof.Machine
end

section
/-! ### Registers, timers and the program counter after every instruction (R12, R14, R72) -/

namespace Sys2Proof.Machine

open Sys2Proof.Claims

variable {s t : State} {i : Instr}

/-! #### Registers -/

theorem State.reg_setFlag_of_ne (s : State) (f : Bool) {r : Idx} (h : r ≠ 15) :
    (s.setFlag f).reg r = s.reg r := by
  rw [State.reg_setFlag]
  exact if_neg h

/-- Flag first, then the result (R100): a register that is neither `VF` nor the destination is kept. -/
theorem State.reg_flag_then_result (s : State) (f : Bool) (v : Byte) {x r : Idx} (h : ¬ (r = x ∨ r = 15)) :
    ((s.setFlag f).setReg x v).reg r = s.reg r := by
  obtain ⟨hx, hflag⟩ := not_or.mp h
  rw [State.reg_setReg_of_ne _ _ hx, State.reg_setFlag_of_ne _ _ hflag]

/-- A register that is no destination of an instruction is kept by it (R12, R26). -/
theorem exec_reg_of_not_destination {r : Idx} (h : exec i s = .next t) (hr : ¬ IsDestination r i) :
    t.reg r = s.reg r := by
  cases i with
  | ldImm | addImm | rnd | ldReg | orReg | andReg | xorReg | ldVxDt =>
    cases h
    rw [State.complete_reg]
    exact State.reg_setReg_of_ne _ _ hr
  | addReg | subReg | shr | subnReg | shl =>
    cases h
    rw [State.complete_reg]
    exact State.reg_flag_then_result _ _ _ hr
  | drw =>
    obtain ⟨c, rfl⟩ := exec_drw_next h
    rw [State.complete_reg]
    exact State.reg_setFlag_of_ne _ _ hr
  | ldVxK =>
    rcases exec_ldVxK_next h with ⟨-, rfl⟩ | ⟨k, -, rfl⟩
    · rfl
    · rw [State.complete_reg]
      exact State.reg_setReg_of_ne _ _ hr
  | loadRegs x =>
    obtain ⟨-, rfl⟩ := exec_loadRegs_next h
    have habove : ¬ r.val < x.val + 1 := fun hlt => hr (Nat.le_of_lt_succ hlt)
    rw [State.complete_reg, State.reg_setRegs]
    exact dif_neg (by rwa [State.length_bytes])
  | ret => obtain ⟨v, -, -, -, rfl⟩ := exec_ret_next h; rfl
  | call => obtain ⟨-, rfl⟩ := exec_call_next h; rfl
  | skp => obtain ⟨k, -, rfl⟩ := exec_skp_next h; exact State.completeSkip_reg _ _ _
  | sknp => obtain ⟨k, -, rfl⟩ := exec_sknp_next h; exact State.completeSkip_reg _ _ _
  | seImm | sneImm | seReg | sneReg => cases h; exact State.completeSkip_reg _ _ _
  | ldB => obtain ⟨-, rfl⟩ := exec_ldB_next h; rfl
  | storeRegs => obtain ⟨-, rfl⟩ := exec_storeRegs_next h; rfl
  | ldF => cases h; split <;> rfl
  | cls | jp | jpV0 | ldI | ldDtVx | ldStVx | addI => cases h; rfl

/-- Settles O51, by cases on the instruction. -/
theorem onlyDestinationRegistersChange : Obligations.OnlyDestinationRegistersChange :=
  fun _ _ _ _ => exec_reg_of_not_destination

/-! #### The program counter -/

/-- A skip by a condition moves `pc` by 4 where it holds and by 2 where it does not (R72). -/
theorem State.completeSkip_pc_of_iff (s : State) {b : Bool} {p : Prop} [Decidable p] (h : b = true ↔ p) :
    (s.completeSkip b).pc.toNat = (s.pc.toNat + if p then 4 else 2) % 65536 := by
  rw [State.completeSkip_pc_toNat]
  simp only [h]

/-- The same, for a skip by the opposite of the condition `p`. -/
theorem State.completeSkip_pc_of_iff_not (s : State) {b : Bool} {p : Prop} [Decidable p] (h : b = true ↔ ¬ p) :
    (s.completeSkip b).pc.toNat = (s.pc.toNat + if p then 2 else 4) % 65536 := by
  rw [s.completeSkip_pc_of_iff h, ite_not]

theorem State.complete_pc_toNat (s : State) : s.complete.pc.toNat = (s.pc.toNat + 2) % 65536 :=
  toNat_add_two s.pc

/-- Where every instruction that goes on leaves `pc` (R14, R72). -/
theorem exec_pcAfter (h : exec i s = .next t) : PcAfter s t.pc.toNat i := by
  cases i with
  | ret =>
    obtain ⟨v, -, -, hv, rfl⟩ := exec_ret_next h
    exact ⟨v, hv, State.complete_pc_toNat _⟩
  | call nnn =>
    obtain ⟨-, rfl⟩ := exec_call_next h
    exact addrToWord_toNat nnn
  | jp nnn => cases h; exact addrToWord_toNat nnn
  | jpV0 nnn => cases h; exact jpV0_target_toNat nnn _
  | seImm | seReg => cases h; exact s.completeSkip_pc_of_iff beq_iff_eq
  | sneImm | sneReg => cases h; exact s.completeSkip_pc_of_iff_not bne_iff_ne
  | skp x =>
    obtain ⟨k, hk, rfl⟩ := exec_skp_next h
    intro j hj
    obtain rfl : j = k := Fin.ext (hj.symm.trans hk)
    exact s.completeSkip_pc_of_iff_not (s.pressed_iff j)
  | sknp x =>
    obtain ⟨k, hk, rfl⟩ := exec_sknp_next h
    intro j hj
    obtain rfl : j = k := Fin.ext (hj.symm.trans hk)
    exact s.completeSkip_pc_of_iff (by simp [State.pressed])
  | ldVxK x =>
    rcases exec_ldVxK_next h with ⟨hnone, rfl⟩ | ⟨k, hk, rfl⟩
    · exact ⟨fun _ => rfl, fun ⟨k, hk⟩ => absurd (hnone k) hk⟩
    · exact ⟨fun hnone => absurd (hnone k) hk, fun _ => State.complete_pc_toNat _⟩
  | drw => obtain ⟨c, rfl⟩ := exec_drw_next h; exact State.complete_pc_toNat _
  | ldB => obtain ⟨-, rfl⟩ := exec_ldB_next h; exact State.complete_pc_toNat _
  | storeRegs => obtain ⟨-, rfl⟩ := exec_storeRegs_next h; exact State.complete_pc_toNat _
  | loadRegs => obtain ⟨-, rfl⟩ := exec_loadRegs_next h; exact State.complete_pc_toNat _
  | ldF => cases h; split <;> exact State.complete_pc_toNat _
  | _ => cases h; exact State.complete_pc_toNat _

/-! #### The timers -/

/-- `DT` when the timers tick: after the instruction's own write of it (R127, D15). -/
def dtBeforeTick (s : State) : Instr → Byte
  | .ldDtVx x => s.reg x
  | _ => s.dt

/-- `ST` when the timers tick: after the instruction's own write of it (R128, D15). -/
def stBeforeTick (s : State) : Instr → Byte
  | .ldStVx x => s.reg x
  | _ => s.st

theorem exec_pending (h : exec i s = .next t) (hp : Pending s i) : t = s := by
  cases i with
  | ldVxK x =>
    rcases exec_ldVxK_next h with ⟨-, e⟩ | ⟨k, hk, -⟩
    · exact e
    · exact absurd (hp k) hk
  | _ => exact hp.elim

/-- Both timers tick once in every cycle that completes (R70 to R72). -/
theorem exec_timers (h : exec i s = .next t) (hp : ¬ Pending s i) :
    t.dt = countDown (dtBeforeTick s i) ∧ t.st = countDown (stBeforeTick s i) := by
  cases i with
  | ret => obtain ⟨v, -, -, -, rfl⟩ := exec_ret_next h; exact ⟨rfl, rfl⟩
  | call => obtain ⟨-, rfl⟩ := exec_call_next h; exact ⟨rfl, rfl⟩
  | skp =>
    obtain ⟨k, -, rfl⟩ := exec_skp_next h
    exact ⟨State.completeSkip_dt _ _, State.completeSkip_st _ _⟩
  | sknp =>
    obtain ⟨k, -, rfl⟩ := exec_sknp_next h
    exact ⟨State.completeSkip_dt _ _, State.completeSkip_st _ _⟩
  | seImm | sneImm | seReg | sneReg =>
    cases h
    exact ⟨State.completeSkip_dt _ _, State.completeSkip_st _ _⟩
  | ldVxK x =>
    rcases exec_ldVxK_next h with ⟨hnone, -⟩ | ⟨k, -, rfl⟩
    · exact absurd hnone hp
    · exact ⟨rfl, rfl⟩
  | drw => obtain ⟨c, rfl⟩ := exec_drw_next h; exact ⟨rfl, rfl⟩
  | ldB => obtain ⟨-, rfl⟩ := exec_ldB_next h; exact ⟨rfl, rfl⟩
  | storeRegs => obtain ⟨-, rfl⟩ := exec_storeRegs_next h; exact ⟨rfl, rfl⟩
  | loadRegs => obtain ⟨-, rfl⟩ := exec_loadRegs_next h; exact ⟨rfl, rfl⟩
  | ldF => cases h; split <;> exact ⟨rfl, rfl⟩
  | _ => cases h; exact ⟨rfl, rfl⟩

theorem dtBeforeTick_of_ne (s : State) (h : ∀ x, i ≠ .ldDtVx x) : dtBeforeTick s i = s.dt := by
  cases i with
  | ldDtVx x => exact absurd rfl (h x)
  | _ => rfl

theorem stBeforeTick_of_ne (s : State) (h : ∀ x, i ≠ .ldStVx x) : stBeforeTick s i = s.st := by
  cases i with
  | ldStVx x => exact absurd rfl (h x)
  | _ => rfl

/-- Settles O52: `pc` by cases on the instruction, the timers by the values they tick from. -/
theorem completionClasses : Obligations.CompletionClasses := by
  intro i s t h
  refine ⟨exec_pcAfter h, exec_pending h, fun hp => ?_⟩
  obtain ⟨hdt, hst⟩ := exec_timers h hp
  rw [hdt, hst, countDown_toNat, countDown_toNat]
  refine ⟨fun hi => ?_, fun hi => ?_, fun x hi => ?_, fun x hi => ?_⟩
  · rw [dtBeforeTick_of_ne s hi]
  · rw [stBeforeTick_of_ne s hi]
  · rw [hi, dtBeforeTick]
  · rw [hi, stBeforeTick]

end Sys2Proof.Machine
end

section
/-! ### The word a cycle latches, and a fetch over stored bytes (R35, R36, R67) -/

namespace Sys2Proof.Machine

variable {s t : State} {i : Instr}

/-- No instruction writes the latch: only the fetch does (R21, R67). -/
theorem exec_opc (h : exec i s = .next t) : t.opc = s.opc := by
  cases i with
  | ret => obtain ⟨v, -, -, -, rfl⟩ := exec_ret_next h; rfl
  | call => obtain ⟨-, rfl⟩ := exec_call_next h; rfl
  | skp => obtain ⟨k, -, rfl⟩ := exec_skp_next h; exact State.completeSkip_opc _ _
  | sknp => obtain ⟨k, -, rfl⟩ := exec_sknp_next h; exact State.completeSkip_opc _ _
  | seImm | sneImm | seReg | sneReg => cases h; exact State.completeSkip_opc _ _
  | ldVxK => rcases exec_ldVxK_next h with ⟨-, rfl⟩ | ⟨k, -, rfl⟩ <;> rfl
  | drw => obtain ⟨c, rfl⟩ := exec_drw_next h; rfl
  | ldB => obtain ⟨-, rfl⟩ := exec_ldB_next h; rfl
  | storeRegs => obtain ⟨-, rfl⟩ := exec_storeRegs_next h; rfl
  | loadRegs => obtain ⟨-, rfl⟩ := exec_loadRegs_next h; rfl
  | ldF => cases h; split <;> rfl
  | _ => cases h; rfl

/-- A cycle that goes on, with an instruction or with an unimplemented word, has latched the fetched word. -/
theorem step_opc (h : step s = .next t) : t.opc = s.fetchWord := by
  obtain ⟨-, ⟨i, -, hexec⟩ | ⟨r, -, rfl⟩⟩ := step_cases h
  · exact (exec_opc hexec).trans (s.setOpc_opc s.fetchWord)
  · exact s.fetched.complete_opc.trans (s.setOpc_opc s.fetchWord)

/-- Settles O11: the latch is the fetched word, whose high byte is the one at `pc`. -/
theorem everyCycleLatchesItsWord : Obligations.EveryCycleLatchesItsWord := by
  intro s t h
  rw [step_opc h]
  exact wordOfBytes_toNat _ _

/-- The byte a block store leaves at `I + k` (R132). -/
theorem exec_storeRegs_byte {x k : Idx} (h : exec (.storeRegs x) s = .next t) (hk : k ≤ x) :
    t.byte (s.index.toNat + k.val) = s.reg k := by
  obtain ⟨-, rfl⟩ := exec_storeRegs_next h
  have hlen : k.val < (s.firstRegs (x.val + 1)).length := by
    rw [State.length_firstRegs]
    exact Nat.lt_succ_of_le hk
  rw [State.complete_byte, State.byte_store_inside _ _ _ _ hlen, State.getElem_firstRegs _ _ _ hlen k.isLt]

/-- Settles O46: both bytes the fetch reads are stored ones. -/
theorem storeSeenByNextFetch : Obligations.StoreSeenByNextFetch := by
  intro x k k' s t h hk' hx hpc
  have hk : k ≤ x := Fin.le_def.mpr (by have := Fin.le_def.mp hx; omega)
  unfold State.fetchWord
  rw [hpc, Nat.add_assoc, ← hk', exec_storeRegs_byte h hk, exec_storeRegs_byte h hx]
  rfl

/-- Settles O10, by the rule of the step for a word that decodes. -/
theorem stepRunsDecodedInstruction : Obligations.StepRunsDecodedInstruction :=
  fun s i hguard hdecode => step_of_decode s i hguard hdecode

end Sys2Proof.Machine
end

section
/-! ### Words and their fields: what fixes a word of each layout (R52, R53, R56) -/

namespace Sys2Proof

variable (op a : BitVec 4) (kk : Byte) (w : Word)

theorem mask_op_eq_iff : w &&& 0xF000#16 = op ++ 0#12 ↔ fieldOp w = op := by
  have hmask : w &&& 0xF000#16 = fieldOp w ++ 0#12 :=
    (congrArg (· &&& 0xF000#16) (word_eq_nnn w)).trans (mask_nnn _ _)
  rw [hmask]
  exact ⟨fun h => by simpa only [fieldOp_nnn] using congrArg fieldOp h, fun h => by rw [h]⟩

theorem mask_op_kk_eq_iff : w &&& 0xF0FF#16 = op ++ 0#4 ++ kk ↔ fieldOp w = op ∧ fieldKk w = kk := by
  have hmask : w &&& 0xF0FF#16 = fieldOp w ++ nibble 0 ++ fieldKk w :=
    (congrArg (· &&& 0xF0FF#16) (word_eq_xkk w)).trans (mask_xss _ _ _)
  rw [hmask]
  refine ⟨fun h => ?_, fun ⟨hop, hkk⟩ => by rw [hop, hkk]; rfl⟩
  have h' : fieldOp w ++ nibble 0 ++ fieldKk w = op ++ nibble 0 ++ kk := h
  exact ⟨by simpa only [fieldOp_xkk] using congrArg fieldOp h',
    by simpa only [fieldKk_xkk] using congrArg fieldKk h'⟩

theorem mask_op_n_eq_iff :
    w &&& 0xF00F#16 = op ++ 0#4 ++ 0#4 ++ a ↔ fieldOp w = op ∧ fieldN w = a.toFin := by
  have hmask : w &&& 0xF00F#16 = fieldOp w ++ nibble 0 ++ nibble 0 ++ nibble (fieldN w) :=
    (congrArg (· &&& 0xF00F#16) (word_eq_digits w)).trans (mask_xyn _ _ _ _)
  rw [hmask]
  refine ⟨fun h => ?_, fun ⟨hop, hn⟩ => by rw [hop, hn]; rfl⟩
  have h' : fieldOp w ++ nibble 0 ++ nibble 0 ++ nibble (fieldN w) = op ++ nibble 0 ++ nibble 0 ++ a := h
  exact ⟨by simpa only [fieldOp_xyn] using congrArg fieldOp h',
    by simpa only [fieldN_xyn, nibble_toFin] using congrArg fieldN h'⟩

theorem nnn_eq_word_iff : op ++ fieldNnn w = w ↔ fieldOp w = op :=
  ⟨fun h => by rw [← h, fieldOp_nnn], fun h => by rw [← h, ← word_eq_nnn]⟩

theorem xkk_eq_word_iff : op ++ nibble (fieldX w) ++ fieldKk w = w ↔ fieldOp w = op :=
  ⟨fun h => by rw [← h, fieldOp_xkk], fun h => by rw [← h, ← word_eq_xkk]⟩

theorem xss_eq_word_iff : op ++ nibble (fieldX w) ++ kk = w ↔ fieldOp w = op ∧ fieldKk w = kk :=
  ⟨fun h => by rw [← h, fieldOp_xkk, fieldKk_xkk]; exact ⟨rfl, rfl⟩,
    fun ⟨hop, hkk⟩ => by rw [← hop, ← hkk, ← word_eq_xkk]⟩

theorem xyn_eq_word_iff :
    op ++ nibble (fieldX w) ++ nibble (fieldY w) ++ a = w ↔ fieldOp w = op ∧ fieldN w = a.toFin :=
  ⟨fun h => by rw [← h, fieldOp_xyn, fieldN_xyn]; exact ⟨rfl, rfl⟩,
    fun ⟨hop, hn⟩ => by
      have ha : nibble (fieldN w) = a := congrArg nibble hn
      rw [← hop, ← ha, ← word_eq_digits]⟩

theorem digits_eq_word_iff :
    op ++ nibble (fieldX w) ++ nibble (fieldY w) ++ nibble (fieldN w) = w ↔ fieldOp w = op :=
  (xyn_eq_word_iff op (nibble (fieldN w)) w).trans (and_iff_left rfl)

end Sys2Proof
end

section
/-! ### Decoding and encoding are inverse (R53, R55) -/

namespace Sys2Proof

variable {w : Word} {i : Instr}

/-- Settles O5, by cases on the instruction: its family's digit and sub-selector choose the branch of the
decode procedure, and the fields of the word are its operands. -/
theorem decodeInvertsEncode : Obligations.DecodeInvertsEncode := by
  intro i
  cases i with
  | cls | ret => rfl
  | jp | call | jpV0 | ldI => simp [decode, encode]
  | seImm | sneImm | ldImm | addImm | rnd => simp [decode, encode]
  | seReg | sneReg | drw => simp [decode, encode]
  | ldReg | orReg | andReg | xorReg | addReg | subReg | shr | subnReg | shl =>
    simp [decode, decodeFamily8, encode]
  | skp | sknp => simp [decode, decodeFamilyE, encode]
  | ldVxDt | ldVxK | ldDtVx | ldStVx | addI | ldF | ldB | storeRegs | loadRegs =>
    simp [decode, decodeFamilyF, encode]

theorem encode_of_decodeFamily0 (h : decodeFamily0 w = .ok i) : encode i = w := by
  unfold decodeFamily0 at h
  split at h
  case isTrue hw => cases h; exact hw.symm
  case isFalse =>
    split at h
    case isTrue hw => cases h; exact hw.symm
    case isFalse => cases h

theorem encode_of_decodeFamily8 (hop : fieldOp w = 0x8#4) (h : decodeFamily8 w = .ok i) : encode i = w := by
  unfold decodeFamily8 at h
  split at h <;> cases h
  all_goals exact (xyn_eq_word_iff _ _ _).mpr ⟨hop, Fin.ext ‹_›⟩

theorem encode_of_decodeFamilyE (hop : fieldOp w = 0xE#4) (h : decodeFamilyE w = .ok i) : encode i = w := by
  unfold decodeFamilyE at h
  split at h <;> cases h
  all_goals exact (xss_eq_word_iff _ _ _).mpr ⟨hop, BitVec.eq_of_toNat_eq ‹_›⟩

theorem encode_of_decodeFamilyF (hop : fieldOp w = 0xF#4) (h : decodeFamilyF w = .ok i) : encode i = w := by
  unfold decodeFamilyF at h
  split at h <;> cases h
  all_goals exact (xss_eq_word_iff _ _ _).mpr ⟨hop, BitVec.eq_of_toNat_eq ‹_›⟩

/-- Settles O6, by the branches of the decode procedure: each fixes the word's family and sub-selector, and
the operands are the word's other fields. -/
theorem encodeInvertsDecode : Obligations.EncodeInvertsDecode := by
  intro w i h
  unfold decode at h
  split at h
  case h_1 => exact encode_of_decodeFamily0 h
  case h_2 | h_3 | h_11 | h_12 =>
    cases h
    exact (nnn_eq_word_iff _ _).mpr (BitVec.eq_of_toNat_eq ‹_›)
  case h_4 | h_5 | h_7 | h_8 | h_13 =>
    cases h
    exact (xkk_eq_word_iff _ _).mpr (BitVec.eq_of_toNat_eq ‹_›)
  case h_6 | h_10 =>
    split at h <;> cases h
    exact (xyn_eq_word_iff _ _ _).mpr ⟨BitVec.eq_of_toNat_eq ‹_›, ‹_›⟩
  case h_9 => exact encode_of_decodeFamily8 (BitVec.eq_of_toNat_eq ‹_›) h
  case h_14 =>
    cases h
    exact (digits_eq_word_iff _ _).mpr (BitVec.eq_of_toNat_eq ‹_›)
  case h_15 => exact encode_of_decodeFamilyE (BitVec.eq_of_toNat_eq ‹_›) h
  case h_16 =>
    have hop : (fieldOp w).toNat = 15 := by
      have := (fieldOp w).isLt
      grind
    exact encode_of_decodeFamilyF (BitVec.eq_of_toNat_eq hop) h

theorem decode_eq_ok_iff : decode w = .ok i ↔ encode i = w :=
  ⟨encodeInvertsDecode w i, fun h => h ▸ decodeInvertsEncode i⟩

end Sys2Proof
end

section
/-! ### The opcode map, row by row (R56) -/

namespace Sys2Proof

/-- The row's pattern fixes the same words as its instruction's encoding. -/
def OpcodeRow.MatchesEncoding (r : OpcodeRow) : Prop :=
  ∀ w : Word, w &&& r.mask = r.want ↔ encode (r.build w) = w

section Layouts
variable (op a : BitVec 4) (kk : Byte) (w : Word)

theorem row_word (v : Word) : w &&& 0xFFFF#16 = v ↔ v = w := by
  rw [show w &&& 0xFFFF#16 = w from BitVec.and_allOnes, eq_comm]

theorem row_nnn : w &&& 0xF000#16 = op ++ 0#12 ↔ op ++ fieldNnn w = w :=
  (mask_op_eq_iff op w).trans (nnn_eq_word_iff op w).symm

theorem row_xkk : w &&& 0xF000#16 = op ++ 0#12 ↔ op ++ nibble (fieldX w) ++ fieldKk w = w :=
  (mask_op_eq_iff op w).trans (xkk_eq_word_iff op w).symm

theorem row_digits : w &&& 0xF000#16 = op ++ 0#12 ↔
    op ++ nibble (fieldX w) ++ nibble (fieldY w) ++ nibble (fieldN w) = w :=
  (mask_op_eq_iff op w).trans (digits_eq_word_iff op w).symm

theorem row_xss : w &&& 0xF0FF#16 = op ++ 0#4 ++ kk ↔ op ++ nibble (fieldX w) ++ kk = w :=
  (mask_op_kk_eq_iff op kk w).trans (xss_eq_word_iff op kk w).symm

theorem row_xyn : w &&& 0xF00F#16 = op ++ 0#4 ++ 0#4 ++ a ↔
    op ++ nibble (fieldX w) ++ nibble (fieldY w) ++ a = w :=
  (mask_op_n_eq_iff op a w).trans (xyn_eq_word_iff op a w).symm

end Layouts

theorem controlFlowRows_matchEncoding : ∀ r ∈ controlFlowRows, r.MatchesEncoding := by
  simp only [controlFlowRows, List.forall_mem_cons]
  exact ⟨fun w => row_word w 0x00E0#16, fun w => row_word w 0x00EE#16, row_nnn 0x1#4, row_nnn 0x2#4,
    row_xkk 0x3#4, row_xkk 0x4#4, row_xyn 0x5#4 0x0#4, row_xyn 0x9#4 0x0#4, row_nnn 0xB#4,
    row_xss 0xE#4 0x9E#8, row_xss 0xE#4 0xA1#8, List.forall_mem_nil _⟩

theorem arithmeticRows_matchEncoding : ∀ r ∈ arithmeticRows, r.MatchesEncoding := by
  simp only [arithmeticRows, List.forall_mem_cons]
  exact ⟨row_xkk 0x6#4, row_xkk 0x7#4, row_nnn 0xA#4, row_xkk 0xC#4, row_xyn 0x8#4 0x0#4,
    row_xyn 0x8#4 0x1#4, row_xyn 0x8#4 0x2#4, row_xyn 0x8#4 0x3#4, row_xyn 0x8#4 0x4#4,
    row_xyn 0x8#4 0x5#4, row_xyn 0x8#4 0x6#4, row_xyn 0x8#4 0x7#4, row_xyn 0x8#4 0xE#4,
    List.forall_mem_nil _⟩

theorem drawAndMiscRows_matchEncoding : ∀ r ∈ drawAndMiscRows, r.MatchesEncoding := by
  simp only [drawAndMiscRows, List.forall_mem_cons]
  exact ⟨row_digits 0xD#4, row_xss 0xF#4 0x07#8, row_xss 0xF#4 0x0A#8, row_xss 0xF#4 0x15#8,
    row_xss 0xF#4 0x18#8, row_xss 0xF#4 0x1E#8, row_xss 0xF#4 0x29#8, row_xss 0xF#4 0x33#8,
    row_xss 0xF#4 0x55#8, row_xss 0xF#4 0x65#8, List.forall_mem_nil _⟩

theorem opcodeMap_matchesEncoding : ∀ r ∈ opcodeMap, r.MatchesEncoding := by
  rw [opcodeMap, List.forall_mem_append, List.forall_mem_append]
  exact ⟨⟨controlFlowRows_matchEncoding, arithmeticRows_matchEncoding⟩, drawAndMiscRows_matchEncoding⟩

/-- Settles O7: a row matches the words that are its instruction's encoding, and those are the words that
decode to it. -/
theorem decodeIsTheOpcodeMap : Obligations.DecodeIsTheOpcodeMap :=
  ⟨rfl, fun r hr w => (opcodeMap_matchesEncoding r hr w).trans decode_eq_ok_iff.symm⟩

end Sys2Proof
end

section
/-! ### The unimplemented words, family by family (R57, R58), and the spec's sample words -/

namespace Sys2Proof

variable (w : Word)

theorem decodeFamily0_rejects_iff :
    decodeFamily0 w = .error (.unimplementedOpcode w) ↔ w ≠ 0x00E0#16 ∧ w ≠ 0x00EE#16 := by
  unfold decodeFamily0
  split
  case isTrue hcls => simp [hcls]
  case isFalse hcls =>
    split
    case isTrue hret => simp [hret]
    case isFalse hret => simp [hcls, hret]

theorem decodeFamily8_rejects_iff : decodeFamily8 w = .error (.unimplementedOpcode w) ↔
    fieldN w ∈ ([8, 9, 10, 11, 12, 13, 15] : List Idx) := by
  unfold decodeFamily8
  generalize fieldN w = n
  fin_cases n <;> simp

theorem decodeFamilyE_rejects_iff :
    decodeFamilyE w = .error (.unimplementedOpcode w) ↔ fieldKk w ∉ [0x9E#8, 0xA1#8] := by
  unfold decodeFamilyE
  split
  case h_1 hkk | h_2 hkk => simp [← BitVec.toNat_inj, hkk]
  case h_3 => simp_all [← BitVec.toNat_inj]

theorem decodeFamilyF_rejects_iff : decodeFamilyF w = .error (.unimplementedOpcode w) ↔
    fieldKk w ∉ [0x07#8, 0x0A#8, 0x15#8, 0x18#8, 0x1E#8, 0x29#8, 0x33#8, 0x55#8, 0x65#8] := by
  unfold decodeFamilyF
  split
  case h_10 => simp_all [← BitVec.toNat_inj]
  all_goals next hkk => simp [← BitVec.toNat_inj, hkk]

theorem fieldOp_eq_iff (op : BitVec 4) : fieldOp w = op ↔ (fieldOp w).toNat = op.toNat :=
  BitVec.toNat_inj.symm

/-- Settles O8, by the branches of the decode procedure: the ten families without a sub-selector that can
fail have no unimplemented word. -/
theorem unimplementedWords : Obligations.UnimplementedWords := by
  intro w
  simp only [fieldOp_eq_iff]
  unfold decode
  split
  case h_1 hop => simp [hop, decodeFamily0_rejects_iff]
  case h_6 hop | h_10 hop => simp [hop]
  case h_9 hop => simp [hop, decodeFamily8_rejects_iff]
  case h_15 hop => simp [hop, decodeFamilyE_rejects_iff]
  case h_16 =>
    have hop : (fieldOp w).toNat = 15 := by
      have := (fieldOp w).isLt
      grind
    simp [hop, decodeFamilyF_rejects_iff]
  all_goals next hop => simp [hop]

/-- Settles O9: the decode procedure computes on each word. -/
theorem sampleWordsDecode : Obligations.SampleWordsDecode := by
  unfold Obligations.SampleWordsDecode
  decide

end Sys2Proof
end

section
/-! ### A cycle that completes: where it must, and what an unimplemented word leaves (R70, R73, R76, R144) -/

namespace Sys2Proof.Machine

open Sys2Proof.Claims

variable {s t u : State} {i : Instr}

/-! #### The specified instructions complete -/

theorem withData_completes {len : Nat} {f : State → State} (h : len = 0 ∨ s.index.toNat + len ≤ 4096) :
    ∃ t, withData s len (fun u => .next (f u)) = .next t := ⟨f s, withData_ok s len _ h⟩

theorem withKey_completes {v : Byte} {f : Idx → State} (h : v.toNat < 16) :
    ∃ t, withKey v (fun k => .next (f k)) = .next t := ⟨f ⟨v.toNat, h⟩, withKey_ok v _ h⟩

/-- An instruction that is none of the cases without a result completes (R144): the instructions that can
stop do so only under the condition `Unspecified` names, and the others have one result in every state. -/
theorem exec_completes_of_specified (h : ¬ Unspecified i s) : ∃ t, exec i s = .next t := by
  cases i with
  | ret =>
    rcases execRet_cases s with ⟨h0, -⟩ | ⟨habove, -⟩ | ⟨v, -, -, -, e⟩
    · exact absurd (Or.inl h0) h
    · exact absurd (Or.inr habove) h
    · exact ⟨_, e⟩
  | call nnn =>
    rcases execCall_cases nnn s with ⟨hfull, -⟩ | ⟨-, e⟩
    · exact absurd hfull h
    · exact ⟨_, e⟩
  | skp x =>
    change ∃ t, execSkp x s = _
    exact withKey_completes (Nat.lt_of_not_le h)
  | sknp x =>
    change ∃ t, execSknp x s = _
    exact withKey_completes (Nat.lt_of_not_le h)
  | drw x y n =>
    rcases execDrw_cases x y n s with ⟨hflag, -⟩ | ⟨-, -, hn, hout, -⟩ | ⟨-, -, -, c, -, e⟩
    · exact absurd (hflag.imp_right Or.inl) h
    · exact absurd (Or.inr (Or.inr ⟨hn, by omega⟩)) h
    · exact ⟨_, e⟩
  | ldB x =>
    change ∃ t, execLdB x s = _
    exact withData_completes (.inr (Nat.succ_le_succ (Nat.le_of_not_lt h)))
  | storeRegs x =>
    change ∃ t, execStoreRegs x s = _
    exact withData_completes (.inr (Nat.succ_le_succ (Nat.le_of_not_lt h)))
  | loadRegs x =>
    change ∃ t, execLoadRegs x s = _
    exact withData_completes (.inr (Nat.succ_le_succ (Nat.le_of_not_lt h)))
  | ldVxK x =>
    rcases execLdVxK_cases x s with ⟨-, e⟩ | ⟨k, -, -, e⟩
    · exact ⟨_, e⟩
    · exact ⟨_, e⟩
  | _ => exact ⟨_, rfl⟩

/-- No case without a result depends on the latch. -/
theorem unspecified_fetched : Unspecified i s.fetched ↔ Unspecified i s := by
  cases i <;> rfl

/-- Settles O53: the guard passes, and the word either has a specified instruction or is a no-op. -/
theorem safeStatesStep : Obligations.SafeStatesStep := by
  rintro s ⟨hguard, hspecified⟩
  cases hd : decode s.fetchWord with
  | ok i =>
    rw [step_of_decode s i hguard hd]
    exact exec_completes_of_specified (mt unspecified_fetched.mp (hspecified i hd))
  | error r => exact ⟨_, step_of_reject s r hguard hd⟩

/-! #### The standard completion after a write -/

theorem State.unchanged_setOpc (s : State) (w : Word) : Unchanged [.opc] s (s.setOpc w) := by
  intro m hm
  cases m with
  | opc => exact absurd (List.mem_singleton_self _) hm
  | regs | memory | stack | screen | keys => exact fun _ => rfl
  | timers | random => exact ⟨rfl, rfl⟩
  | index | pc | sp | params => rfl

/-- The standard completion (R70) of the state `u` that an effect has left: it adds `pc + 2` and the tick
to the members that effect wrote. -/
theorem State.stdNext_complete {written : List Member} (hu : Unchanged written s u) (hpc : u.pc = s.pc)
    (hdt : u.dt = s.dt) (hst : u.st = s.st) : StdNext written s u.complete := by
  refine ⟨?_, ⟨?_, ?_⟩, fun m hm => ?_⟩
  · rw [PcPlus, u.complete_pc_toNat, hpc]
  · rw [State.complete_dt, countDown_toNat, hdt]
  · rw [State.complete_st, countDown_toNat, hst]
  · simp only [List.mem_cons, not_or] at hm
    obtain ⟨hmpc, hmtimers, hwritten⟩ := hm
    have hkept := hu m hwritten
    cases m with
    | pc => exact absurd rfl hmpc
    | timers => exact absurd rfl hmtimers
    | _ => exact hkept

/-! #### The report of a cycle that goes on (R73, R75) -/

theorem advance_of_step (h : step s = .next t) : advance s = .next (s.cycleReport, t) := by
  rw [advance, h]

theorem State.cycleReport_of_reject {r : DecodeReject} (h : decode s.fetchWord = .error r) :
    s.cycleReport = .unimplementedOpcode s.fetchWord := by
  rw [State.cycleReport, h]

/-- Settles O13: the cycle is the latch and then the standard completion, and its report is the word's. -/
theorem unimplementedWordIsReportedNoOp : Obligations.UnimplementedWordIsReportedNoOp := by
  intro s hguard hreject
  have hstep := step_of_reject s _ hguard hreject
  refine ⟨s.fetched.complete, hstep, ?_, ?_, step_opc hstep⟩
  · rw [advance_of_step hstep, State.cycleReport_of_reject hreject]
  · exact State.stdNext_complete (s.unchanged_setOpc s.fetchWord) rfl rfl rfl

end Sys2Proof.Machine
end

section
/-! ### Frames: what an operation leaves unchanged, composed and narrowed

The frame of an instruction is put together from the frames of the operations its meaning is written in. -/

namespace Sys2Proof.Machine

open Sys2Proof.Claims

section Frames
variable {s t u : State} {m : Member} {l l' : List Member}

theorem kept_trans (hst : Kept s t m) (htu : Kept t u m) : Kept s u m := by
  cases m with
  | regs | memory | stack | screen | keys => exact fun k => (htu k).trans (hst k)
  | timers | random => exact ⟨htu.1.trans hst.1, htu.2.trans hst.2⟩
  | index | pc | sp | opc | params => exact htu.trans hst

theorem unchanged_refl (l : List Member) (s : State) : Unchanged l s s := fun m _ => kept_refl s m

theorem unchanged_mono (h : Unchanged l s t) (hl : l ⊆ l') : Unchanged l' s t :=
  fun m hm => h m fun hml => hm (hl hml)

theorem unchanged_trans (hst : Unchanged l s t) (htu : Unchanged l' t u) : Unchanged (l ++ l') s u := by
  intro m hm
  rw [List.mem_append, not_or] at hm
  obtain ⟨hml, hml'⟩ := hm
  exact kept_trans (hst m hml) (htu m hml')

/-- A member found to be kept leaves the list of exceptions. -/
theorem unchanged_of_cons (h : Unchanged (m :: l) s t) (hm : Kept s t m) : Unchanged l s t := by
  intro m' hm'
  by_cases e : m' = m
  · exact e ▸ hm
  · exact h m' (List.not_mem_cons_of_ne_of_not_mem e hm')

end Frames

/-! #### The operations of the control-flow group and the completions -/

variable (s : State)

theorem State.unchanged_setPc (v : Word) : Unchanged [.pc] s (s.setPc v) := by
  intro m hm
  cases m with
  | pc => exact absurd (List.mem_singleton_self _) hm
  | _ => simp [Kept]

theorem State.unchanged_setFb (fb : Framebuffer) : Unchanged [.screen] s (s.setFb fb) := by
  intro m hm
  cases m with
  | screen => exact absurd (List.mem_singleton_self _) hm
  | _ => simp [Kept]

theorem State.unchanged_push (v : Word) : Unchanged [.stack, .sp] s (s.push v) := by
  intro m hm
  cases m with
  | stack | sp => simp at hm
  | _ => simp [Kept]

theorem State.unchanged_dropTop : Unchanged [.sp] s s.dropTop := by
  intro m hm
  cases m with
  | sp => exact absurd (List.mem_singleton_self _) hm
  | _ => simp [Kept]

theorem State.unchanged_tick : Unchanged [.timers] s s.tick := by
  intro m hm
  cases m with
  | timers => exact absurd (List.mem_singleton_self _) hm
  | _ => simp [Kept]

theorem State.unchanged_completeSkip (b : Bool) : Unchanged [.pc, .timers] s (s.completeSkip b) := by
  intro m hm
  cases m with
  | pc | timers => simp at hm
  | _ => simp [Kept]

theorem State.stdNext_complete_self : StdNext [] s s.complete :=
  State.stdNext_complete (unchanged_refl [] s) rfl rfl rfl

theorem State.ticked_tick : Ticked s s.tick := ⟨countDown_toNat s.dt, countDown_toNat s.st⟩

end Sys2Proof.Machine
end

section
/-! ### The control-flow group (R80 to R90) -/

namespace Sys2Proof.Machine

open Sys2Proof.Claims

variable {s t u : State}

/-- Settles O15: an all-zero framebuffer, then the standard completion. -/
theorem clearScreen : Obligations.ClearScreen := by
  refine ⟨rfl, fun s => ⟨(s.setFb 0#2048).complete, rfl, fun k => ?_, ?_⟩⟩
  · exact BitVec.getLsbD_zero
  · exact State.stdNext_complete (s.unchanged_setFb _) rfl rfl rfl

/-! #### Jumps (R82, R88) -/

theorem State.unchanged_jump (s : State) (v : Word) : Unchanged [.pc, .timers] s (s.setPc v).tick :=
  unchanged_trans (s.unchanged_setPc v) (s.setPc v).unchanged_tick

/-- Settles O17: both targets are sums of zero-extended operands that 16 bits hold. -/
theorem jumpTargets : Obligations.JumpTargets := by
  refine fun nnn s => ⟨decodeInvertsEncode (.jp nnn), decodeInvertsEncode (.jpV0 nnn), ?_, ?_⟩
  · exact ⟨_, rfl, addrToWord_toNat nnn, s.ticked_tick, s.unchanged_jump _⟩
  · exact ⟨_, rfl, jpV0_target_toNat nnn (s.reg 0), s.ticked_tick, s.unchanged_jump _⟩

/-! #### Calls and returns (R81, R83) -/

theorem exec_call_of_free (nnn : Addr) (hsp : s.sp.toNat < 16) :
    exec (.call nnn) s = .next ((s.push s.pc).setPc (addrToWord nnn)).tick := by
  rcases execCall_cases nnn s with ⟨hfull, -⟩ | ⟨-, e⟩
  · omega
  · exact e

theorem exec_ret_of_slot {v : Word} (h1 : 1 ≤ s.sp.toNat) (h16 : s.sp.toNat ≤ 16)
    (hv : s.slot (s.sp.toNat - 1) = some v) : exec .ret s = .next (s.dropTop.setPc v).complete := by
  rcases execRet_cases s with ⟨h0, -⟩ | ⟨habove, -⟩ | ⟨v', -, -, hv', e⟩
  · simp [h0] at h1
  · omega
  · obtain rfl : v' = v := Option.some.inj (hv'.symm.trans hv)
    exact e

/-- Settles O18: the push writes slot `SP` alone, and the rest is a jump. -/
theorem callPushesItsOwnAddress : Obligations.CallPushesItsOwnAddress := by
  refine fun nnn s => ⟨decodeInvertsEncode (.call nnn), fun hsp => ?_⟩
  refine ⟨_, exec_call_of_free nnn hsp, ?_, fun k hk => ?_, s.push_sp_toNat s.pc hsp, addrToWord_toNat nnn,
    s.ticked_tick, ?_⟩
  · exact (s.slot_push s.pc _ hsp).trans (if_pos rfl)
  · exact (s.slot_push s.pc k hsp).trans (if_neg hk)
  · exact unchanged_mono (unchanged_trans (s.unchanged_push s.pc) ((s.push s.pc).unchanged_jump _)) (by decide)

/-- Settles O16: the standard completion starts from the popped address, with `SP` one less. -/
theorem returnPopsAndAdvances : Obligations.ReturnPopsAndAdvances := by
  refine ⟨rfl, fun s v h1 h16 hv => ?_⟩
  have hne : s.sp ≠ 0#5 := fun e => by simp [e] at h1
  obtain ⟨hpc, hticked, hframe⟩ := (s.dropTop.setPc v).stdNext_complete_self
  refine ⟨_, exec_ret_of_slot h1 h16 hv, hpc, s.dropTop_sp_toNat hne, hticked, ?_⟩
  have hpop := unchanged_trans s.unchanged_dropTop (s.dropTop.unchanged_setPc v)
  exact unchanged_mono (unchanged_trans hpop hframe) (by decide)

theorem ticked_twice (h : Ticked s t) (h' : Ticked t u) :
    u.dt.toNat = s.dt.toNat - 2 ∧ u.st.toNat = s.st.toNat - 2 := by
  obtain ⟨hdt, hst⟩ := h
  obtain ⟨hdt', hst'⟩ := h'
  omega

/-- Settles O19: the return finds the pushed address in the slot below `SP`, and it leaves the stack as the
call left it. -/
theorem callThenReturn : Obligations.CallThenReturn := by
  intro nnn s hsp
  obtain ⟨t, hcall, hpushed, hothers, hspt, -, htick, hframe⟩ := (callPushesItsOwnAddress nnn s).2 hsp
  have htop : t.slot (t.sp.toNat - 1) = some s.pc := by rw [hspt]; exact hpushed
  obtain ⟨u, hret, hpc, hspu, htick', hframe'⟩ :=
    returnPopsAndAdvances.2 t s.pc (by omega) (by omega) htop
  have hstack : ∀ k, u.slot k = t.slot k := hframe' .stack (by decide)
  have hspEq : u.sp = s.sp := BitVec.eq_of_toNat_eq (by omega)
  obtain ⟨hdt, hst⟩ := ticked_twice htick htick'
  refine ⟨t, u, hcall, hret, hspEq, hpc, (hstack _).trans hpushed,
    fun k hk => (hstack k).trans (hothers k hk), hdt, hst, ?_⟩
  exact unchanged_of_cons (m := .sp) (unchanged_mono (unchanged_trans hframe hframe') (by decide)) hspEq

/-! #### Skips (R72, R84 to R90) -/

/-- A skip by a condition (R72), whatever the condition is computed from. -/
theorem State.skipNext_completeSkip (s : State) {b : Bool} {p : Prop} (h : b = true ↔ p) :
    SkipNext p s (s.completeSkip b) := by
  refine ⟨fun hp => ?_, fun hp => ?_, ⟨?_, ?_⟩, s.unchanged_completeSkip b⟩
  · rw [PcPlus, s.completeSkip_pc_toNat, if_pos (h.mpr hp)]
  · rw [PcPlus, s.completeSkip_pc_toNat, if_neg (mt h.mp hp)]
  · rw [s.completeSkip_dt, countDown_toNat]
  · rw [s.completeSkip_st, countDown_toNat]

/-- Settles O21: both are skips, by an equality and by its opposite. -/
theorem skipOnImmediate : Obligations.SkipOnImmediate := by
  refine fun x kk s => ⟨decodeInvertsEncode (.seImm x kk), decodeInvertsEncode (.sneImm x kk), ?_, ?_⟩
  · exact ⟨_, rfl, s.skipNext_completeSkip beq_iff_eq⟩
  · exact ⟨_, rfl, s.skipNext_completeSkip bne_iff_ne⟩

/-- Settles O22: both are skips, by an equality and by its opposite. -/
theorem skipOnRegisters : Obligations.SkipOnRegisters := by
  refine fun x y s => ⟨decodeInvertsEncode (.seReg x y), decodeInvertsEncode (.sneReg x y), ?_, ?_⟩
  · exact ⟨_, rfl, s.skipNext_completeSkip beq_iff_eq⟩
  · exact ⟨_, rfl, s.skipNext_completeSkip bne_iff_ne⟩

theorem withKey_of_key {v : Byte} {k : Idx} (hk : v.toNat = k.val) (body : Idx → Result) :
    withKey v body = body k :=
  (withKey_ok v body (hk ▸ k.isLt)).trans (congrArg body (Fin.ext hk))

theorem exec_skp_of_key {x k : Idx} (hk : (s.reg x).toNat = k.val) :
    exec (.skp x) s = .next (s.completeSkip (s.pressed k)) :=
  withKey_of_key hk fun k => .next (s.completeSkip (s.pressed k))

theorem exec_sknp_of_key {x k : Idx} (hk : (s.reg x).toNat = k.val) :
    exec (.sknp x) s = .next (s.completeSkip (!s.pressed k)) :=
  withKey_of_key hk fun k => .next (s.completeSkip (!s.pressed k))

theorem State.not_pressed_iff (s : State) (k : Idx) : (!s.pressed k) = true ↔ s.key k = 0 := by
  simp [State.pressed]

/-- Settles O23: `V[x]` numbers the key `k`, and both are skips by its level. -/
theorem skipOnKey : Obligations.SkipOnKey := by
  refine fun x k s => ⟨decodeInvertsEncode (.skp x), decodeInvertsEncode (.sknp x), fun hk => ⟨?_, ?_⟩⟩
  · exact ⟨_, exec_skp_of_key hk, s.skipNext_completeSkip (s.pressed_iff k)⟩
  · exact ⟨_, exec_sknp_of_key hk, s.skipNext_completeSkip (s.not_pressed_iff k)⟩

end Sys2Proof.Machine
end

section
/-! ### Finished programs (R82, R165) -/

namespace Sys2Proof.Machine

open Sys2Proof.Claims

variable {s t : State}

/-- The fetched word is a function of `pc` and of memory. -/
theorem fetchWord_of_kept (hpc : Kept s t .pc) (hmem : Kept s t .memory) : t.fetchWord = s.fetchWord := by
  unfold State.fetchWord
  rw [hpc, hmem, hmem]

/-- Whether a program is finished does not depend on the timers or the latch. -/
theorem State.finished.of_unchanged (hs : s.finished) (h : Unchanged [.timers, .opc] s t) : t.finished := by
  have hpc : t.pc = s.pc := h .pc (by decide)
  have hparams : t.params = s.params := h .params (by decide)
  have hword : t.fetchWord = s.fetchWord := fetchWord_of_kept hpc (h .memory (by decide))
  unfold State.finished
  rw [hword, hpc, hparams]
  exact hs

/-- Settles O54: the latch and then a jump that leaves `pc` where it was. -/
theorem finishedProgramsStayFinished : Obligations.FinishedProgramsStayFinished := by
  intro s hs
  have ⟨hguard, nnn, hdecode, hself⟩ := hs
  obtain ⟨-, -, ⟨t, hjump, htarget, htick, hframe⟩, -⟩ := jumpTargets nnn s.fetched
  have hpc : t.pc = s.pc := BitVec.eq_of_toNat_eq (htarget.trans hself)
  have hall : Unchanged [.pc, .timers, .opc] s t :=
    unchanged_mono (unchanged_trans (s.unchanged_setOpc s.fetchWord) hframe) (by decide)
  have hkept : Unchanged [.timers, .opc] s t := unchanged_of_cons hall hpc
  exact ⟨t, (step_of_decode s _ hguard hdecode).trans hjump, htick, hkept, hs.of_unchanged hkept⟩

end Sys2Proof.Machine
end

section
/-! ### One member written, then the standard completion (R70)

The shape of the immediate group, and of every other instruction whose effect is one write. -/

namespace Sys2Proof.Machine

open Sys2Proof.Claims

variable (s : State)

theorem State.unchanged_setReg (x : Idx) (v : Byte) : Unchanged [.regs] s (s.setReg x v) := by
  intro m hm
  cases m with
  | regs => exact absurd (List.mem_singleton_self _) hm
  | _ => simp [Kept]

theorem State.unchanged_setIndex (v : Word) : Unchanged [.index] s (s.setIndex v) := by
  intro m hm
  cases m with
  | index => exact absurd (List.mem_singleton_self _) hm
  | _ => simp [Kept]

theorem State.unchanged_consumeRand : Unchanged [.random] s s.consumeRand := by
  intro m hm
  cases m with
  | random => exact absurd (List.mem_singleton_self _) hm
  | _ => simp [Kept]

theorem State.otherRegs_setReg_complete (x : Idx) (v : Byte) : OtherRegs [x] s (s.setReg x v).complete :=
  fun _ hr => s.reg_setReg_of_ne v (List.ne_of_not_mem_cons hr)

theorem State.stdNext_setReg (x : Idx) (v : Byte) : StdNext [.regs] s (s.setReg x v).complete :=
  State.stdNext_complete (s.unchanged_setReg x v) rfl rfl rfl

theorem State.stdNext_setIndex (v : Word) : StdNext [.index] s (s.setIndex v).complete :=
  State.stdNext_complete (s.unchanged_setIndex v) rfl rfl rfl

end Sys2Proof.Machine
end

section
/-! ### The immediate group (R95 to R99) -/

namespace Sys2Proof.Machine

open Sys2Proof.Claims

variable (s : State)

/-- Settles O25: both write `V[x]` and nothing else, and 8-bit addition is addition modulo 256. -/
theorem loadAndAddImmediate : Obligations.LoadAndAddImmediate := by
  refine fun x kk s => ⟨decodeInvertsEncode (.ldImm x kk), decodeInvertsEncode (.addImm x kk), ?_, ?_⟩
  · exact ⟨_, rfl, s.reg_setReg_self x kk, s.otherRegs_setReg_complete x kk, s.stdNext_setReg x kk⟩
  · refine ⟨(s.setReg x (s.reg x + kk)).complete, rfl, ?_, s.otherRegs_setReg_complete x _, s.stdNext_setReg x _⟩
    rw [State.complete_reg, State.reg_setReg_self, BitVec.toNat_add]

/-- Settles O26: 16 bits hold the zero-extended immediate. -/
theorem loadIndexImmediate : Obligations.LoadIndexImmediate :=
  fun nnn s => ⟨decodeInvertsEncode (.ldI nnn), _, rfl, addrToWord_toNat nnn, s.stdNext_setIndex _⟩

/-! #### The masked random byte (R98, R99) -/

theorem State.nextRand_of_supplied {r : Byte} {rest : List Byte} (h : s.randInput = r :: rest) :
    s.nextRand = r := by
  rw [State.nextRand, h]

/-- A masked byte has no bit outside its mask. -/
theorem masked_and_not_mask (v kk : Byte) : (v &&& kk) &&& ~~~kk = 0#8 := by
  rw [BitVec.and_assoc, BitVec.and_not_self]
  exact BitVec.and_zero

theorem State.stdNext_rnd (x : Idx) (v : Byte) :
    StdNext [.regs, .random] s (s.consumeRand.setReg x v).complete := by
  have hdrawn := unchanged_trans s.unchanged_consumeRand (s.consumeRand.unchanged_setReg x v)
  exact State.stdNext_complete (unchanged_mono hdrawn (by decide)) rfl rfl rfl

/-- Settles O27: the masking does not depend on the byte drawn, and a supplied byte is the one drawn. -/
theorem randomByteIsMasked : Obligations.RandomByteIsMasked := by
  refine fun x kk s => ⟨decodeInvertsEncode (.rnd x kk), ?_⟩
  have hx : (s.consumeRand.setReg x (s.nextRand &&& kk)).complete.reg x = s.nextRand &&& kk :=
    s.consumeRand.reg_setReg_self x _
  refine ⟨_, rfl, ?_, fun r rest hr => ?_, rfl, rfl, ?_, s.stdNext_rnd x _⟩
  · rw [hx, masked_and_not_mask]
  · rw [hx, State.nextRand_of_supplied s hr]
  · exact s.consumeRand.otherRegs_setReg_complete x _

end Sys2Proof.Machine
end

section
/-! ### Moves and bitwise operations of two registers (R101 to R104) -/

namespace Sys2Proof.Machine

open Sys2Proof.Claims

variable {s : State} {i : Instr} {x : Idx} {v : Byte}

/-- An instruction whose meaning is one register write and the standard completion. -/
theorem exec_of_setReg_complete (h : exec i s = .next (s.setReg x v).complete) :
    ∃ t, exec i s = .next t ∧ t.reg x = v ∧ OtherRegs [x] s t ∧ StdNext [.regs] s t :=
  ⟨_, h, s.reg_setReg_self x v, s.otherRegs_setReg_complete x v, s.stdNext_setReg x v⟩

/-- The same with the written byte given bit by bit. -/
theorem exec_bits_of_setReg_complete {bit : Nat → Bool} (h : exec i s = .next (s.setReg x v).complete)
    (hv : ∀ b, v.getLsbD b = bit b) :
    ∃ t, exec i s = .next t ∧ (∀ b, b < 8 → (t.reg x).getLsbD b = bit b) ∧
      OtherRegs [x] s t ∧ StdNext [.regs] s t := by
  obtain ⟨t, ht, hreg, hframe⟩ := exec_of_setReg_complete h
  exact ⟨t, ht, fun b _ => hreg ▸ hv b, hframe⟩

/-- Settles O28: each is one register write, of the source or of the bitwise combination. -/
theorem moveAndLogic : Obligations.MoveAndLogic := by
  refine fun x y s => ⟨⟨decodeInvertsEncode (.ldReg x y), decodeInvertsEncode (.orReg x y),
    decodeInvertsEncode (.andReg x y), decodeInvertsEncode (.xorReg x y)⟩, ?move, ?or, ?and, ?xor⟩
  case move => exact exec_of_setReg_complete rfl
  case or => exact exec_bits_of_setReg_complete rfl fun _ => BitVec.getLsbD_or
  case and => exact exec_bits_of_setReg_complete rfl fun _ => BitVec.getLsbD_and
  case xor => exact exec_bits_of_setReg_complete rfl fun _ => BitVec.getLsbD_xor

end Sys2Proof.Machine
end

section
/-! ### The draw (R115 to R121) -/

namespace Sys2Proof.Machine

open Sys2Proof.Claims

variable {s t : State} {x y n : Idx}

/-- The cells that `Dxyn` flips in the state `s`. -/
def State.drawnCells (s : State) (x y n : Idx) : List Nat :=
  spriteCells (s.reg x) (s.reg y) 0 (s.bytes s.index.toNat n)

theorem State.mem_drawnCells (k : Nat) : k ∈ s.drawnCells x y n ↔ UnderSprite s x y n k := by
  unfold State.drawnCells UnderSprite
  rw [mem_spriteCells]
  constructor
  · rintro ⟨i, hi, j, hj, hbit, hk⟩
    rw [s.getElem_bytes] at hbit
    rw [Nat.zero_add] at hk
    exact ⟨i, j, hi.trans_eq (s.length_bytes _ _), hj, hbit, hk.symm⟩
  · rintro ⟨i, j, hi, hj, hbit, hk⟩
    refine ⟨i, hi.trans_eq (s.length_bytes _ _).symm, j, hj, ?_, ?_⟩
    · rw [s.getElem_bytes]
      exact hbit
    · rw [Nat.zero_add]
      exact hk.symm

theorem State.any_drawnCells_cell :
    (s.drawnCells x y n).any s.cell = true ↔ ∃ k, UnderSprite s x y n k ∧ s.cell k = true := by
  simp only [List.any_eq_true, State.mem_drawnCells]

/-- What the sprite covers is a function of the two coordinates, of `I` and of memory. -/
theorem underSprite_iff_of_kept (hx : t.reg x = s.reg x) (hy : t.reg y = s.reg y)
    (hindex : Kept s t .index) (hmem : Kept s t .memory) (n k : Nat) :
    UnderSprite t x y n k ↔ UnderSprite s x y n k := by
  have hbyte : ∀ a, t.byte a = s.byte a := hmem
  have hindexEq : t.index = s.index := hindex
  simp only [UnderSprite, hbyte, hindexEq, hx, hy]

/-- The draw, with its picture and its collision flag as functions of the flipped cells. -/
theorem exec_drw_of_data (hx : x ≠ 15) (hy : y ≠ 15)
    (hdata : n.val ≥ 1 → s.index.toNat + n.val - 1 ≤ 4095) :
    ∃ c : Canvas, exec (.drw x y n) s = .next ((s.setFb c.fb).setFlag c.hit).complete ∧
      (∀ k, c.fb.getLsbD k = (s.cell k ^^ decide (k ∈ s.drawnCells x y n))) ∧
      c.hit = (s.drawnCells x y n).any s.cell := by
  rcases execDrw_cases x y n s with ⟨hflag, -⟩ | ⟨-, -, hn, hout, -⟩ | ⟨-, -, -, c, rfl, e⟩
  · exact absurd hflag (not_or.mpr ⟨hx, hy⟩)
  · have := hdata hn
    omega
  · have hrows : (s.bytes s.index.toNat n).length ≤ 32 := by
      rw [s.length_bytes]
      omega
    obtain ⟨hcells, hhit⟩ := drawRows_spec (s.reg x) (s.reg y) _ ⟨s.fb, false⟩ hrows
    exact ⟨_, e, hcells, hhit.trans (Bool.false_or _)⟩

theorem State.unchanged_setFb_setFlag (s : State) (fb : Framebuffer) (f : Bool) :
    Unchanged [.regs, .screen] s ((s.setFb fb).setFlag f) :=
  unchanged_mono (unchanged_trans (s.unchanged_setFb fb) ((s.setFb fb).unchanged_setReg _ _)) (by decide)

/-- Settles O32: the flipped cells are those under set sprite bits, each flipped once, and the flag is set
by those of them that were lit. -/
theorem drawInvertsCellsUnderSprite : Obligations.DrawInvertsCellsUnderSprite := by
  refine fun x y n s => ⟨decodeInvertsEncode (.drw x y n), fun hx hy hdata => ?_⟩
  obtain ⟨c, hexec, hcells, hhit⟩ := exec_drw_of_data hx hy hdata
  have hflag : ((s.setFb c.fb).setFlag c.hit).complete.reg 15 = if c.hit then 1#8 else 0#8 :=
    (s.setFb c.fb).reg_setReg_self 15 _
  refine ⟨_, hexec, fun k hk => ?inverted, fun k hk => ?kept, fun hlit => ?hit, fun hdark => ?miss,
    (s.setFb c.fb).otherRegs_setReg_complete 15 _,
    State.stdNext_complete (s.unchanged_setFb_setFlag c.fb c.hit) rfl rfl rfl⟩
  case inverted =>
    refine (hcells k).trans ?_
    rw [decide_eq_true (s.mem_drawnCells k |>.mpr hk), Bool.xor_true]
  case kept =>
    refine (hcells k).trans ?_
    rw [decide_eq_false (mt (s.mem_drawnCells k).mp hk), Bool.xor_false]
  case hit => rw [hflag, if_pos (hhit.trans (State.any_drawnCells_cell.mpr hlit))]
  case miss => rw [hflag, if_neg (hhit ▸ mt State.any_drawnCells_cell.mp hdark)]

/-- Settles O33: the first draw keeps all that the sprite is computed from, so that the second inverts the
same cells once more, and it finds lit exactly the covered cells that were dark. -/
theorem drawTwiceRestoresScreen : Obligations.DrawTwiceRestoresScreen := by
  intro x y n s hx hy hdata
  obtain ⟨t, ht, hinverted, hkept, -, -, hregs, -, -, hframe⟩ :=
    (drawInvertsCellsUnderSprite x y n s).2 hx hy hdata
  have hindex : t.index = s.index := hframe .index (by decide)
  have hsame : ∀ k, UnderSprite t x y n k ↔ UnderSprite s x y n k :=
    underSprite_iff_of_kept (hregs x (by simpa using hx)) (hregs y (by simpa using hy)) hindex
      (hframe .memory (by decide)) n
  obtain ⟨u, hu, hinverted', hkept', hhit, hmiss, -, -⟩ :=
    (drawInvertsCellsUnderSprite x y n t).2 hx hy (hindex ▸ hdata)
  have hlit : (∃ k, UnderSprite t x y n k ∧ t.cell k = true) ↔
      ∃ k, UnderSprite s x y n k ∧ s.cell k = false := by
    refine exists_congr fun k => (and_congr_left' (hsame k)).trans (and_congr_right fun hk => ?_)
    rw [hinverted k hk, Bool.not_eq_true']
  refine ⟨t, u, ht, hu, fun k => ?_, ?_⟩
  · by_cases hk : UnderSprite s x y n k
    · rw [hinverted' k ((hsame k).mpr hk), hinverted k hk, Bool.not_not]
    · rw [hkept' k (mt (hsame k).mp hk), hkept k hk]
  · rw [← hlit]
    refine ⟨fun hone => ?_, hhit⟩
    by_contra hdark
    exact absurd (hone.symm.trans (hmiss hdark)) (by decide)

end Sys2Proof.Machine
end

section
/-! ### The miscellaneous group (R126 to R133) -/

namespace Sys2Proof.Machine

open Sys2Proof.Claims

variable {s : State} {x : Idx}

/-- A byte holds a key number and a decimal digit. -/
theorem toNat_ofNat_byte {d : Nat} (h : d < 256) : (BitVec.ofNat 8 d).toNat = d := Nat.mod_eq_of_lt h

/-! #### The key-wait (R126) -/

theorem exec_ldVxK_of_least {k : Idx} (hk : s.key k ≠ 0) (hleast : ∀ j < k, s.key j = 0) :
    exec (.ldVxK x) s = .next (s.setReg x (BitVec.ofNat 8 k.val)).complete := by
  change execLdVxK x s = _
  rw [execLdVxK, (s.firstPressed_eq_some k).mpr ⟨hk, hleast⟩]

theorem exec_ldVxK_of_released (h : ∀ k, s.key k = 0) : exec (.ldVxK x) s = .next s := by
  change execLdVxK x s = _
  rw [execLdVxK, s.firstPressed_eq_none.mpr h]

/-- Settles O38: a recorded key is one register write, and a byte holds every key number. -/
theorem keyWaitRecordsLeastKey : Obligations.KeyWaitRecordsLeastKey := by
  refine fun x s => ⟨decodeInvertsEncode (.ldVxK x), fun k hk hleast => ?_, exec_ldVxK_of_released⟩
  obtain ⟨t, ht, hreg, hframe⟩ := exec_of_setReg_complete (exec_ldVxK_of_least hk hleast)
  exact ⟨t, ht, by rw [hreg, toNat_ofNat_byte (k.isLt.trans (by decide))], hframe⟩

/-! #### The writes of `I` (R129, R130) -/

/-- Settles O40: 16-bit addition is addition modulo 65536. -/
theorem addToIndex : Obligations.AddToIndex := by
  refine fun x s => ⟨decodeInvertsEncode (.addI x), _, rfl, ?_, s.stdNext_setIndex _⟩
  rw [State.complete_index, State.setIndex_index, BitVec.toNat_add, byteToWord_toNat]

theorem exec_ldF_of_glyph (h : (s.reg x).toNat < 16) :
    exec (.ldF x) s = .next (s.setIndex (glyphAddress (s.reg x).toNat)).complete := by
  change execLdF x s = _
  rw [execLdF, if_pos h]

theorem exec_ldF_of_no_glyph (h : ¬ (s.reg x).toNat < 16) : exec (.ldF x) s = .next s.complete := by
  change execLdF x s = _
  rw [execLdF, if_neg h]

/-- Settles O41: a glyph's address is five times its number, and without a glyph `I` is not written. -/
theorem ldFGlyphAddress : Obligations.GlyphAddress := by
  refine fun x s => ⟨decodeInvertsEncode (.ldF x), ?_⟩
  by_cases h : (s.reg x).toNat < 16
  · refine ⟨_, exec_ldF_of_glyph h, ?_, s.stdNext_setIndex _⟩
    rw [if_pos h, State.complete_index, State.setIndex_index, glyphAddress_toNat _ h, Nat.mul_comm]
  · refine ⟨_, exec_ldF_of_no_glyph h, ?_, State.stdNext_complete (unchanged_refl _ s) rfl rfl rfl⟩
    rw [if_neg h, State.complete_index]

/-! #### The stores and the load (R131 to R133) -/

theorem State.unchanged_store (s : State) (a : Nat) (bs : List Byte) : Unchanged [.memory] s (s.store a bs) := by
  intro m hm
  cases m with
  | memory => exact absurd (List.mem_singleton_self _) hm
  | _ => simp [Kept]

theorem State.stdNext_store (s : State) (a : Nat) (bs : List Byte) :
    StdNext [.memory] s (s.store a bs).complete :=
  State.stdNext_complete (s.unchanged_store a bs) rfl rfl rfl

/-! Inside memory the three instructions complete (R144), with the result their meaning names. -/

theorem exec_ldB_of_data (h : s.index.toNat + 2 ≤ 4095) :
    exec (.ldB x) s = .next (s.store s.index.toNat (bcdDigits (s.reg x))).complete := by
  obtain ⟨t, ht⟩ := exec_completes_of_specified (i := .ldB x) (Nat.not_lt.mpr h)
  obtain ⟨-, rfl⟩ := exec_ldB_next ht
  exact ht

theorem exec_storeRegs_of_data (h : s.index.toNat + x.val ≤ 4095) :
    exec (.storeRegs x) s = .next (s.store s.index.toNat (s.firstRegs (x.val + 1))).complete := by
  obtain ⟨t, ht⟩ := exec_completes_of_specified (i := .storeRegs x) (Nat.not_lt.mpr h)
  obtain ⟨-, rfl⟩ := exec_storeRegs_next ht
  exact ht

theorem exec_loadRegs_of_data (h : s.index.toNat + x.val ≤ 4095) :
    exec (.loadRegs x) s = .next (s.setRegs (s.bytes s.index.toNat (x.val + 1))).complete := by
  obtain ⟨t, ht⟩ := exec_completes_of_specified (i := .loadRegs x) (Nat.not_lt.mpr h)
  obtain ⟨-, rfl⟩ := exec_loadRegs_next ht
  exact ht

/-- Settles O42: the stored bytes are the three digits, each of which a byte holds. -/
theorem storeDecimalDigits : Obligations.StoreDecimalDigits := by
  refine fun x s => ⟨decodeInvertsEncode (.ldB x), fun hdata => ?_⟩
  have hv := (s.reg x).isLt
  have hstored : ∀ k (hk : k < 3), (s.store s.index.toNat (bcdDigits (s.reg x))).complete.byte
      (s.index.toNat + k) = (bcdDigits (s.reg x))[k] :=
    fun k => s.byte_store_inside s.index.toNat k (bcdDigits (s.reg x))
  refine ⟨_, exec_ldB_of_data hdata, ?hundreds, ?tens, ?ones, fun a => ?outside, s.stdNext_store _ _⟩
  case hundreds =>
    exact (congrArg BitVec.toNat (hstored 0 (by decide))).trans (toNat_ofNat_byte (by omega))
  case tens =>
    exact (congrArg BitVec.toNat (hstored 1 (by decide))).trans (toNat_ofNat_byte (by omega))
  case ones =>
    exact (congrArg BitVec.toNat (hstored 2 (by decide))).trans (toNat_ofNat_byte (by omega))
  case outside => exact s.byte_store_of_outside s.index.toNat a (bcdDigits (s.reg x))

/-- Settles O43: the stored bytes are the registers `V[0]`..`V[x]`. -/
theorem storeRegisterBlock : Obligations.StoreRegisterBlock := by
  refine fun x s => ⟨decodeInvertsEncode (.storeRegs x), fun hdata => ?_⟩
  have hexec := exec_storeRegs_of_data hdata
  refine ⟨_, hexec, fun k => exec_storeRegs_byte hexec, fun a ha => ?_, s.stdNext_store _ _⟩
  rw [State.complete_byte]
  exact s.byte_store_of_outside _ a _ (by rw [State.length_firstRegs]; exact ha)

theorem State.unchanged_setRegs (s : State) (bs : List Byte) : Unchanged [.regs] s (s.setRegs bs) := by
  intro m hm
  cases m with
  | regs => exact absurd (List.mem_singleton_self _) hm
  | _ => simp [Kept]

/-- A register after the load of a block of memory. -/
theorem State.reg_setRegs_bytes (s : State) (a n : Nat) (k : Idx) :
    (s.setRegs (s.bytes a n)).reg k = if k.val < n then s.byte (a + k.val) else s.reg k := by
  rw [State.reg_setRegs]
  simp only [State.length_bytes, State.getElem_bytes, dite_eq_ite]

/-- Settles O44: the first `x + 1` registers come from memory, and the others are kept. -/
theorem loadRegisterBlock : Obligations.LoadRegisterBlock := by
  refine fun x s => ⟨decodeInvertsEncode (.loadRegs x), fun hdata => ?_⟩
  have hreg := s.reg_setRegs_bytes s.index.toNat (x.val + 1)
  refine ⟨_, exec_loadRegs_of_data hdata, fun k hk => ?_, fun k hk => ?_,
    State.stdNext_complete (s.unchanged_setRegs _) rfl rfl rfl⟩
  · exact (hreg k).trans (if_pos (Nat.lt_succ_of_le hk))
  · exact (hreg k).trans (if_neg (Nat.not_lt.mpr hk))

/-- Settles O45: the store keeps `I`, so that the load reads the block at the addresses the store wrote. -/
theorem storeThenLoadRestores : Obligations.StoreThenLoadRestores := by
  intro x s t t' hstore hindex hmem
  obtain ⟨hdata, ht⟩ := exec_storeRegs_next hstore
  have hsame : t'.index = s.index := by rw [hindex, ht, State.complete_index, State.store_index]
  obtain ⟨u, hload, hloaded, -⟩ := (loadRegisterBlock x t').2 (by rw [hsame]; omega)
  refine ⟨u, hload, fun k hk => ?_⟩
  rw [hloaded k hk, hmem, hsame, exec_storeRegs_byte hstore hk]

end Sys2Proof.Machine
end

section
/-! ### The stops of an instruction, and the statements about them (R38, R91, R92, R120, R144) -/

namespace Sys2Proof.Machine

open Sys2Proof.Claims

variable {s t : State} {i : Instr} {f : Fault}

/-- How an instruction stops: one clause a case without a result (R144). -/
inductive Stops : Instr → State → Result → Prop
  | callFull {nnn : Addr} {s : State} (h : s.sp.toNat ≥ 16) : Stops (.call nnn) s (.fault .stackOverflow)
  | retEmpty {s : State} (h : s.sp = 0#5) : Stops .ret s (.fault .stackUnderflow)
  | retAbove {s : State} (h : s.sp.toNat > 16) : Stops .ret s (.fault .stackSlotAbsent)
  | skp {x : Idx} {s : State} (h : (s.reg x).toNat ≥ 16) : Stops (.skp x) s (.fault .keyIndexOutOfRange)
  | sknp {x : Idx} {s : State} (h : (s.reg x).toNat ≥ 16) : Stops (.sknp x) s (.fault .keyIndexOutOfRange)
  | drwFlag {x y n : Idx} {s : State} (h : x = 15 ∨ y = 15) :
    Stops (.drw x y n) s (.refused .drawFlagCoordinate)
  | drwData {x y n : Idx} {s : State} (h : n.val ≥ 1 ∧ s.index.toNat + n.val > 4096) :
    Stops (.drw x y n) s (.fault .dataAddressOutOfRange)
  | ldB {x : Idx} {s : State} (h : s.index.toNat + 2 > 4095) :
    Stops (.ldB x) s (.fault .dataAddressOutOfRange)
  | storeRegs {x : Idx} {s : State} (h : s.index.toNat + x.val > 4095) :
    Stops (.storeRegs x) s (.fault .dataAddressOutOfRange)
  | loadRegs {x : Idx} {s : State} (h : s.index.toNat + x.val > 4095) :
    Stops (.loadRegs x) s (.fault .dataAddressOutOfRange)

/-- A case without a result stops as its clause says. -/
theorem exec_stops_of_unspecified (h : Unspecified i s) : Stops i s (exec i s) := by
  cases i with
  | ret =>
    change Stops _ s (execRet s)
    rcases execRet_cases s with ⟨hempty, e⟩ | ⟨habove, e⟩ | ⟨v, h1, h16, -, -⟩
    · exact e ▸ .retEmpty hempty
    · exact e ▸ .retAbove habove
    · rcases h with h0 | habove
      · simp [h0] at h1
      · exact absurd h16 (Nat.not_le.mpr habove)
  | call nnn =>
    change Stops _ s (execCall nnn s)
    rcases execCall_cases nnn s with ⟨hfull, e⟩ | ⟨hfree, -⟩
    · exact e ▸ .callFull hfull
    · exact absurd h (Nat.not_le.mpr hfree)
  | skp x =>
    change Stops _ s (execSkp x s)
    rw [execSkp, withKey_fault _ _ h]
    exact .skp h
  | sknp x =>
    change Stops _ s (execSknp x s)
    rw [execSknp, withKey_fault _ _ h]
    exact .sknp h
  | drw x y n =>
    change Stops _ s (execDrw x y n s)
    rcases execDrw_cases x y n s with ⟨hflag, e⟩ | ⟨-, -, hn, hout, e⟩ | ⟨hx, hy, hdata, -⟩
    · exact e ▸ .drwFlag hflag
    · exact e ▸ .drwData ⟨hn, hout⟩
    · obtain ⟨hn, hout⟩ := (h.resolve_left hx).resolve_left hy
      omega
  | ldB x =>
    change Stops _ s (execLdB x s)
    rw [execLdB, withData_fault _ _ _ ⟨by decide, Nat.succ_lt_succ h⟩]
    exact .ldB h
  | storeRegs x =>
    change Stops _ s (execStoreRegs x s)
    rw [execStoreRegs, withData_fault _ _ _ ⟨Nat.succ_pos _, Nat.succ_lt_succ h⟩]
    exact .storeRegs h
  | loadRegs x =>
    change Stops _ s (execLoadRegs x s)
    rw [execLoadRegs, withData_fault _ _ _ ⟨Nat.succ_pos _, Nat.succ_lt_succ h⟩]
    exact .loadRegs h
  | _ => exact h.elim

/-- An instruction that goes on was none of the cases without a result. -/
theorem specified_of_exec_next (h : exec i s = .next t) : ¬ Unspecified i s := by
  intro hu
  have hstop := exec_stops_of_unspecified hu
  rw [h] at hstop
  cases hstop

/-- An instruction either goes on or stops as one of the clauses says. -/
theorem exec_next_or_stops (i : Instr) (s : State) : (∃ t, exec i s = .next t) ∨ Stops i s (exec i s) := by
  by_cases h : Unspecified i s
  · exact .inr (exec_stops_of_unspecified h)
  · exact .inl (exec_completes_of_specified h)

theorem stops_of_exec_fault (h : exec i s = .fault f) : Stops i s (.fault f) := by
  rcases exec_next_or_stops i s with ⟨t, e⟩ | hstop
  · cases e.symm.trans h
  · exact h ▸ hstop

theorem stops_of_exec_refused {r : Refusal} (h : exec i s = .refused r) : Stops i s (.refused r) := by
  rcases exec_next_or_stops i s with ⟨t, e⟩ | hstop
  · cases e.symm.trans h
  · exact h ▸ hstop

/-- Where an instruction has one way to stop, it stops so exactly in its cases without a result. -/
theorem exec_eq_fault_iff (hone : ∀ o, Stops i s o → o = .fault f) : exec i s = .fault f ↔ Unspecified i s := by
  refine ⟨fun h => ?_, fun h => hone _ (exec_stops_of_unspecified h)⟩
  by_contra hspecified
  obtain ⟨t, e⟩ := exec_completes_of_specified hspecified
  cases e.symm.trans h

/-- Settles O48: the specified instructions complete, and the others stop. -/
theorem completesExactlyWhenSpecified : Obligations.CompletesExactlyWhenSpecified :=
  fun _ _ => ⟨fun ⟨_, h⟩ => specified_of_exec_next h, exec_completes_of_specified⟩

/-- Settles O49, clause by clause of the stops. -/
theorem stopsAreTheListedCases : Obligations.StopsAreTheListedCases := by
  refine ⟨fun i s f h => ?_, fun i s r h => ?_⟩
  · cases stops_of_exec_fault h with
    | callFull => exact .inl ⟨rfl, _, rfl⟩
    | retEmpty hempty => exact .inr (.inl ⟨rfl, rfl, hempty⟩)
    | retAbove habove => exact .inr (.inr (.inl ⟨rfl, rfl, habove⟩))
    | skp => exact .inr (.inr (.inr (.inl ⟨rfl, _, .inl rfl⟩)))
    | sknp => exact .inr (.inr (.inr (.inl ⟨rfl, _, .inr rfl⟩)))
    | ldB => exact .inr (.inr (.inr (.inr ⟨rfl, _, 0, 0, .inl rfl⟩)))
    | storeRegs => exact .inr (.inr (.inr (.inr ⟨rfl, _, 0, 0, .inr (.inl rfl)⟩)))
    | loadRegs => exact .inr (.inr (.inr (.inr ⟨rfl, _, 0, 0, .inr (.inr (.inl rfl))⟩)))
    | drwData => exact .inr (.inr (.inr (.inr ⟨rfl, _, _, _, .inr (.inr (.inr rfl))⟩)))
  · cases stops_of_exec_refused h with
    | drwFlag hflag => exact ⟨rfl, _, _, _, rfl, hflag⟩

/-- Settles O47: each of the four has one way to stop, the draw once its coordinates are not `VF`. -/
theorem dataAddressOutsideMemoryFaults : Obligations.DataAddressOutsideMemoryFaults := by
  refine fun x y n s => ⟨?ldB, ?storeRegs, ?loadRegs, fun hx hy => ?drw⟩
  case ldB => exact exec_eq_fault_iff fun _ h => by cases h; rfl
  case storeRegs => exact exec_eq_fault_iff fun _ h => by cases h; rfl
  case loadRegs => exact exec_eq_fault_iff fun _ h => by cases h; rfl
  case drw =>
    have hone : ∀ o, Stops (.drw x y n) s o → o = .fault .dataAddressOutOfRange := by
      intro o h
      cases h with
      | drwFlag hflag => exact absurd hflag (not_or.mpr ⟨hx, hy⟩)
      | drwData => rfl
    exact (exec_eq_fault_iff hone).trans ((or_iff_right hx).trans (or_iff_right hy))

/-- Settles O20: in each state named, the instruction has one way to stop. -/
theorem stackBoundsFault : Obligations.StackBoundsFault := by
  refine ⟨fun nnn s hfull => ?_, fun s hempty => ?_⟩
  · exact (exec_eq_fault_iff fun _ h => by cases h; rfl).mpr (by simp [Unspecified, Config.stackDepth, hfull])
  · refine (exec_eq_fault_iff fun _ h => ?_).mpr (.inl hempty)
    cases h with
    | retEmpty => rfl
    | retAbove habove => simp [hempty] at habove

/-- Settles O24: a key number has one way to be none. -/
theorem keyNumberAboveFifteenFaults : Obligations.KeyNumberAboveFifteenFaults :=
  fun _ _ hkey => ⟨(exec_eq_fault_iff fun _ h => by cases h; rfl).mpr hkey,
    (exec_eq_fault_iff fun _ h => by cases h; rfl).mpr hkey⟩

/-- Settles O34: the first of the three cases of a draw is the only one a flag coordinate allows. -/
theorem drawRefusesFlagCoordinate : Obligations.DrawRefusesFlagCoordinate := by
  intro x y n s hflag
  rcases execDrw_cases x y n s with ⟨-, e⟩ | ⟨hx, hy, -⟩ | ⟨hx, hy, -⟩
  · exact e
  · exact absurd hflag (not_or.mpr ⟨hx, hy⟩)
  · exact absurd hflag (not_or.mpr ⟨hx, hy⟩)

end Sys2Proof.Machine
end

section
/-! ### The guard, the report of a defined instruction, and the repeated key-wait (R66, R75, R126) -/

namespace Sys2Proof.Machine

variable {s t : State} {i : Instr}

/-- No instruction raises the guard's condition. -/
theorem exec_ne_addressOutOfBounds (p : Word) : exec i s ≠ .fault (.addressOutOfBounds p) :=
  fun h => nomatch stops_of_exec_fault h

theorem step_ne_addressOutOfBounds (hguard : s.pc.toNat + 1 < s.params.fetchLimit.val) (p : Word) :
    step s ≠ .fault (.addressOutOfBounds p) := by
  cases hd : decode s.fetchWord with
  | ok i =>
    rw [step_of_decode s i hguard hd]
    exact exec_ne_addressOutOfBounds p
  | error r =>
    rw [step_of_reject s r hguard hd]
    exact nofun

theorem step_eq_addressOutOfBounds_iff (s : State) (p : Word) :
    step s = .fault (.addressOutOfBounds p) ↔ s.pc.toNat + 1 ≥ s.params.fetchLimit.val ∧ p = s.pc := by
  by_cases hguard : s.pc.toNat + 1 < s.params.fetchLimit.val
  · exact iff_of_false (step_ne_addressOutOfBounds hguard p) fun h => absurd hguard (Nat.not_lt.mpr h.1)
  · rw [step_of_guard s (Nat.not_lt.mp hguard)]
    simp [Nat.not_lt.mp hguard, eq_comm]

/-- Settles O12: only the guard raises the condition, and `advance()` hands it on with the state as it was. -/
theorem guardRefusesFetchOutsideMemory : Obligations.GuardRefusesFetchOutsideMemory := by
  refine ⟨step_eq_addressOutOfBounds_iff, fun s hguard => ?_, rfl⟩
  rw [advance, step_of_guard s hguard]

theorem State.cycleReport_of_decode (h : decode s.fetchWord = .ok i) : s.cycleReport = .ok := by
  rw [State.cycleReport, h]

/-- Settles O14: a cycle that goes on reports by its word alone. -/
theorem definedInstructionReportsOk : Obligations.DefinedInstructionReportsOk := by
  intro s t i hdecode hstep
  rw [advance_of_step hstep, State.cycleReport_of_decode hdecode]

/-! #### Runs of the core -/

theorem run_succ_of_step {M : Host.Core} {s t : M.State} (h : M.step s = .next t) (n : Nat) :
    M.run (n + 1) s = M.run n t := by
  rw [Host.Core.run, h]

/-- A run from a state that steps to itself stays there. -/
theorem run_of_step_self {M : Host.Core} {s : M.State} (h : M.step s = .next s) (n : Nat) :
    M.run n s = .next s := by
  induction n with
  | zero => rfl
  | succ n ih => rw [run_succ_of_step h, ih]

theorem State.awaitingKey.step (h : s.awaitingKey) : step s = .next s.fetched := by
  obtain ⟨hguard, ⟨x, hdecode⟩, hreleased⟩ := h
  rw [step_of_decode s _ hguard hdecode]
  exact exec_ldVxK_of_released hreleased

/-- Waiting does not depend on the latch. -/
theorem State.awaitingKey.fetched (h : s.awaitingKey) : s.fetched.awaitingKey := h

/-- Settles O39: the first cycle latches the word, and the latched state steps to itself. -/
theorem pendingKeyWaitRepeats : Obligations.PendingKeyWaitRepeats := by
  intro s n hwait hn
  obtain ⟨k, rfl⟩ := Nat.exists_eq_add_of_le' hn
  exact (run_succ_of_step hwait.step k).trans (run_of_step_self hwait.fetched.step k)

end Sys2Proof.Machine
end

section
/-! ### Frames of whole instructions (R26) -/

namespace Sys2Proof.Machine

open Sys2Proof.Claims

variable {s t u : State} {i : Instr} {l : List Member}

/-- The standard completion adds `pc` and the timers to the members an effect wrote, these among them. -/
theorem State.unchanged_complete (hu : Unchanged l s u) : Unchanged (.pc :: .timers :: l) s u.complete := by
  obtain ⟨-, -, hframe⟩ := u.stdNext_complete_self
  refine unchanged_mono (unchanged_trans hu hframe) fun m hm => ?_
  simpa [or_comm, or_assoc] using hm

theorem State.unchanged_setDt (s : State) (v : Byte) : Unchanged [.timers] s (s.setDt v) := by
  intro m hm
  cases m with
  | timers => exact absurd (List.mem_singleton_self _) hm
  | _ => simp [Kept]

theorem State.unchanged_setSt (s : State) (v : Byte) : Unchanged [.timers] s (s.setSt v) := by
  intro m hm
  cases m with
  | timers => exact absurd (List.mem_singleton_self _) hm
  | _ => simp [Kept]

/-- Flag first, then the result (R100): both writes are register writes. -/
theorem State.unchanged_flag_then_result (s : State) (f : Bool) (x : Idx) (v : Byte) :
    Unchanged [.regs] s ((s.setFlag f).setReg x v) :=
  unchanged_mono (unchanged_trans (s.unchanged_setReg _ _) ((s.setFlag f).unchanged_setReg x v)) (by decide)

/-- Settles O50: the frame of each instruction is that of the writes its meaning is made of, completed. -/
theorem onlyListedWritersWrite : Obligations.OnlyListedWritersWrite := by
  intro i s t h
  cases i with
  | cls => cases h; exact State.unchanged_complete (s.unchanged_setFb _)
  | ret =>
    obtain ⟨v, -, -, -, rfl⟩ := exec_ret_next h
    have hpop := unchanged_trans s.unchanged_dropTop (s.dropTop.unchanged_setPc v)
    exact unchanged_mono (State.unchanged_complete hpop) (by simp [mayWrite])
  | jp nnn => cases h; exact s.unchanged_jump _
  | jpV0 nnn => cases h; exact s.unchanged_jump _
  | call nnn =>
    obtain ⟨-, rfl⟩ := exec_call_next h
    have hcall := unchanged_trans (s.unchanged_push s.pc) ((s.push s.pc).unchanged_jump (addrToWord nnn))
    exact unchanged_mono hcall (by simp [mayWrite])
  | seImm | sneImm | seReg | sneReg => cases h; exact s.unchanged_completeSkip _
  | skp => obtain ⟨k, -, rfl⟩ := exec_skp_next h; exact s.unchanged_completeSkip _
  | sknp => obtain ⟨k, -, rfl⟩ := exec_sknp_next h; exact s.unchanged_completeSkip _
  | ldImm | addImm | ldReg | orReg | andReg | xorReg | ldVxDt =>
    cases h
    exact State.unchanged_complete (s.unchanged_setReg _ _)
  | addReg | subReg | shr | subnReg | shl =>
    cases h
    exact State.unchanged_complete (s.unchanged_flag_then_result _ _ _)
  | rnd x kk =>
    cases h
    obtain ⟨-, -, hframe⟩ := s.stdNext_rnd x (s.nextRand &&& kk)
    exact hframe
  | drw =>
    obtain ⟨c, rfl⟩ := exec_drw_next h
    exact State.unchanged_complete (s.unchanged_setFb_setFlag _ _)
  | ldVxK =>
    rcases exec_ldVxK_next h with ⟨-, rfl⟩ | ⟨k, -, rfl⟩
    · exact unchanged_refl _ _
    · exact State.unchanged_complete (s.unchanged_setReg _ _)
  | ldDtVx =>
    cases h
    exact unchanged_mono (State.unchanged_complete (s.unchanged_setDt _)) (by simp [mayWrite])
  | ldStVx =>
    cases h
    exact unchanged_mono (State.unchanged_complete (s.unchanged_setSt _)) (by simp [mayWrite])
  | ldI | addI => cases h; exact State.unchanged_complete (s.unchanged_setIndex _)
  | ldF =>
    cases h
    split
    · exact State.unchanged_complete (s.unchanged_setIndex _)
    · exact State.unchanged_complete (unchanged_refl _ s)
  | ldB =>
    obtain ⟨-, rfl⟩ := exec_ldB_next h
    exact State.unchanged_complete (s.unchanged_store _ _)
  | storeRegs =>
    obtain ⟨-, rfl⟩ := exec_storeRegs_next h
    exact State.unchanged_complete (s.unchanged_store _ _)
  | loadRegs =>
    obtain ⟨-, rfl⟩ := exec_loadRegs_next h
    exact State.unchanged_complete (s.unchanged_setRegs _)

/-! #### The timers (R125, R127, R128, R168) -/

/-- Settles O35: one register write, of the timer as it was. -/
theorem readDelayTimer : Obligations.ReadDelayTimer :=
  fun x _ => ⟨decodeInvertsEncode (.ldVxDt x), exec_of_setReg_complete rfl⟩

/-- Settles O36: the completion ticks the timer just written along with the other. -/
theorem setTimers : Obligations.SetTimers := by
  refine fun x s => ⟨decodeInvertsEncode (.ldDtVx x), decodeInvertsEncode (.ldStVx x), ?dt, ?st⟩
  case dt => exact ⟨(s.setDt (s.reg x)).complete, rfl, countDown_toNat _, countDown_toNat _,
    State.complete_pc_toNat _, onlyListedWritersWrite (.ldDtVx x) s _ rfl⟩
  case st => exact ⟨(s.setSt (s.reg x)).complete, rfl, countDown_toNat _, countDown_toNat _,
    State.complete_pc_toNat _, onlyListedWritersWrite (.ldStVx x) s _ rfl⟩

/-- Settles O37: the read finds what the write left after its tick. -/
theorem delaySetThenRead : Obligations.DelaySetThenRead := by
  intro x y s
  obtain ⟨-, -, ⟨t, hset, hdt, -⟩, -⟩ := setTimers x s
  obtain ⟨-, u, hread, hreg, -⟩ := readDelayTimer y t
  exact ⟨t, u, hset, hread, by rw [hreg, hdt]⟩

end Sys2Proof.Machine
end

section
/-! ### Arithmetic and shifts: the flag, then the result (R100, R105 to R109) -/

namespace Sys2Proof.Machine

open Sys2Proof.Claims

variable {s : State} {i : Instr} {x : Idx} {v : Byte} {f : Bool}

/-- The register `r` as a number once the flag is written (D10). -/
theorem State.toNat_reg_setFlag (s : State) (f : Bool) (r : Idx) :
    ((s.setFlag f).reg r).toNat = if r = 15 then f.toNat else (s.reg r).toNat := by
  rw [State.reg_setFlag]
  change (if r = 15 then _ else _ : Byte).toNat = _
  split
  · cases f <;> rfl
  · rfl

/-- An instruction that writes a flag, then a result, and completes. The result and the flag are given as
numbers. -/
theorem exec_of_flag_then_result {value flag : Nat}
    (h : exec i s = .next ((s.setFlag f).setReg x v).complete) (hv : v.toNat = value) (hf : f.toNat = flag) :
    ∃ t, exec i s = .next t ∧ (t.reg x).toNat = value ∧ (x ≠ 15 → (t.reg 15).toNat = flag) ∧
      OtherRegs [x, 15] s t ∧ StdNext [.regs] s t := by
  refine ⟨_, h, ?result, fun hx => ?flag, fun r hr => ?others, ?frame⟩
  case result => rw [State.complete_reg, State.reg_setReg_self, hv]
  case flag => rw [State.complete_reg, State.reg_setReg_of_ne _ _ hx.symm, State.toNat_reg_setFlag, if_pos rfl, hf]
  case others => exact s.reg_flag_then_result f v (by simpa using hr)
  case frame => exact State.stdNext_complete (s.unchanged_flag_then_result f x v) rfl rfl rfl

theorem toNat_carryFlag (a b : Byte) : (carryFlag a b).toNat = if a.toNat + b.toNat > 255 then 1 else 0 :=
  Bool.cond_decide _ _ _

theorem toNat_greaterFlag (a b : Byte) : (greaterFlag a b).toNat = if a.toNat > b.toNat then 1 else 0 :=
  Bool.cond_decide _ _ _

theorem toNat_lowBitFlag (a : Byte) : (lowBitFlag a).toNat = a.toNat % 2 := by
  have h : (lowBitFlag a).toNat = a.toNat / 2 ^ 0 % 2 := Nat.toNat_testBit _ _
  rwa [pow_zero, Nat.div_one] at h

theorem toNat_highBitFlag (a : Byte) : (highBitFlag a).toNat = a.toNat / 128 := by
  have h : (highBitFlag a).toNat = a.toNat / 2 ^ 7 % 2 := Nat.toNat_testBit _ _
  have := a.isLt
  omega

theorem toNat_sub_byte (a b : Byte) : (a - b).toNat = (a.toNat + 256 - b.toNat) % 256 := by
  have := b.isLt
  rw [BitVec.toNat_sub]
  omega

/-- Settles O29: 8-bit addition is addition modulo 256, and both flag and sum are of the old values. -/
theorem addWithCarry : Obligations.AddWithCarry :=
  fun x y s => ⟨decodeInvertsEncode (.addReg x y),
    exec_of_flag_then_result rfl (BitVec.toNat_add _ _) (toNat_carryFlag (s.reg x) (s.reg y))⟩

/-- Settles O30: the operands of the difference are read once the flag is written. -/
theorem subtractNotBorrow : Obligations.SubtractNotBorrow := by
  intro x y s flag operand
  refine ⟨decodeInvertsEncode (.subReg x y), decodeInvertsEncode (.subnReg x y), ?sub, ?subn⟩
  case sub =>
    have hflag := toNat_greaterFlag (s.reg x) (s.reg y)
    refine exec_of_flag_then_result rfl ?_ hflag
    rw [toNat_sub_byte, State.toNat_reg_setFlag, State.toNat_reg_setFlag, hflag]
  case subn =>
    have hflag := toNat_greaterFlag (s.reg y) (s.reg x)
    refine exec_of_flag_then_result rfl ?_ hflag
    rw [toNat_sub_byte, State.toNat_reg_setFlag, State.toNat_reg_setFlag, hflag]

/-- Settles O31: the operand of the shift is read once the flag is written. -/
theorem shiftByOne : Obligations.ShiftByOne := by
  intro x y s operand
  refine ⟨decodeInvertsEncode (.shr x y), decodeInvertsEncode (.shl x y), ?shr, ?shl⟩
  case shr =>
    have hflag := toNat_lowBitFlag (s.reg x)
    refine exec_of_flag_then_result rfl ?_ hflag
    rw [BitVec.toNat_ushiftRight, Nat.shiftRight_one, State.toNat_reg_setFlag, hflag]
  case shl =>
    have hflag := toNat_highBitFlag (s.reg x)
    refine exec_of_flag_then_result rfl ?_ hflag
    rw [BitVec.toNat_shiftLeft, Nat.shiftLeft_eq, pow_one, State.toNat_reg_setFlag, hflag]

end Sys2Proof.Machine
end

section
/-! ### load and the lifecycle (R24, R161 to R163) -/

namespace Sys2Proof.Machine

open Sys2Proof.Claims

variable {s t : State} {image : List Byte} {r : Report} {d : Session}

/-- Whatever the free value says, a byte the image reaches is as it was or the image's (R162). -/
theorem Memory.read_loadPart_inside {font : Font} (bs : List Byte) (m : Memory) (draw a k : Nat)
    (h : k < bs.length) :
    read font (loadPart font m draw a bs) (a + k) = read font m (a + k) ∨
      read font (loadPart font m draw a bs) (a + k) = bs[k] := by
  induction bs generalizing m a k with
  | nil => exact absurd h (Nat.not_lt_zero k)
  | cons b bs ih =>
    by_cases ha : a < 4096
    · rw [loadPart_cons m draw a b bs ha]
      cases k with
      | zero =>
        rw [read_loadPart_outside bs _ draw (a + 1) (a + 0) (.inl (Nat.lt_succ_self a))]
        split
        · exact .inr (read_write_self m a b)
        · exact .inl rfl
      | succ k =>
        have hrest := ih (if Config.loadCopies draw a then write font m a b else m) (a + 1) k
          (Nat.lt_of_succ_lt_succ h)
        rw [Nat.add_right_comm, Nat.add_assoc] at hrest
        refine hrest.imp_left fun hold => hold.trans ?_
        split
        · exact read_write_of_ne m b (by omega)
        · rfl
    · rw [loadPart_end m draw a _ (Nat.not_lt.mp ha)]
      exact .inl rfl

theorem Session.perform_load_of_fits (h : s.pc.toNat + image.length ≤ 4096) :
    Session.perform (.load image) (.ready s) = .next (.ok, .running (s.store s.pc.toNat image)) := by
  rw [← s.load_of_fits image h]
  exact if_pos ((s.loadFits_iff image).mpr h)

theorem Session.perform_load_of_overflow (h : s.pc.toNat + image.length > 4096) :
    Session.perform (.load image) (.ready s) = .next (.loadOverflow, .notRunnable (s.load image)) :=
  if_neg (mt (s.loadFits_iff image).mp (Nat.not_le.mpr h))

/-- Settles O56: a fitting image is stored at `pc`. -/
theorem loadPlacesImage : Obligations.LoadPlacesImage :=
  fun s image hfits => ⟨s.store s.pc.toNat image, Session.perform_load_of_fits hfits,
    fun k => s.byte_store_inside s.pc.toNat k image, fun a => s.byte_store_of_outside s.pc.toNat a image,
    s.unchanged_store s.pc.toNat image⟩

/-- A load that does not fit writes memory and the draw counter alone. -/
theorem State.unchanged_load_of_overflow (h : s.pc.toNat + image.length > 4096) :
    Unchanged [.memory, .random] s (s.load image) := by
  intro m hm
  rw [s.load_of_overflow image h]
  cases m with
  | memory | random => simp at hm
  | regs | stack | screen | keys => exact fun _ => rfl
  | timers => exact ⟨rfl, rfl⟩
  | index | pc | sp | opc | params => rfl

theorem State.byte_load_of_overflow (h : s.pc.toNat + image.length > 4096) (a : Nat) :
    (s.load image).byte a =
      Memory.read s.params.font (Memory.loadPart s.params.font s.mem s.draws s.pc.toNat image) a := by
  rw [s.load_of_overflow image h]
  rfl

/-- Settles O57: the partial copy leaves each byte as it was or the image's, and the session it leads to
accepts no cycle and no load. -/
theorem failedLoadIsNotRunnable : Obligations.FailedLoadIsNotRunnable := by
  intro s image h
  refine ⟨s.load image, Session.perform_load_of_overflow h, fun k hk _ => ?inside, fun a ha => ?outside,
    State.unchanged_load_of_overflow h, ?rand, rfl, fun _ => rfl⟩
  case inside =>
    rw [State.byte_load_of_overflow h]
    exact Memory.read_loadPart_inside image s.mem s.draws s.pc.toNat k hk
  case outside =>
    rw [State.byte_load_of_overflow h]
    exact Memory.read_loadPart_outside image s.mem s.draws s.pc.toNat a (ha.imp_right .inr)
  case rand => rw [s.load_of_overflow image h]; rfl

theorem Session.perform_running_next {a : HostAction} (ha : a ≠ .init)
    (h : Session.perform a (.running s) = .next (r, d)) : ∃ t, d = .running t := by
  cases a with
  | init => exact absurd rfl ha
  | load image => cases h
  | advance =>
    obtain ⟨t, hd, -⟩ := Session.runCycle_next h
    exact ⟨t, hd⟩
  | writeKey | supplyRand => cases h; exact ⟨_, rfl⟩

theorem Session.perform_notRunnable_next {a : HostAction} (ha : a ≠ .init)
    (h : Session.perform a (.notRunnable s) = .next (r, d)) : ∃ t, d = .notRunnable t := by
  cases a with
  | init => exact absurd rfl ha
  | load | advance => cases h
  | writeKey | supplyRand => cases h; exact ⟨_, rfl⟩

/-- Settles O58, session by session of the lifecycle. -/
theorem lifecycleRefusals : Obligations.LifecycleRefusals := by
  refine ⟨fun a p ha => ?beforeInit, fun _ _ => ⟨rfl, rfl⟩, fun image s => ?load, fun s r d h => ?cycle,
    fun _ _ _ _ => Session.perform_running_next, fun _ _ _ _ => Session.perform_notRunnable_next⟩
  case beforeInit =>
    cases a with
    | init => exact absurd rfl ha
    | load | advance | writeKey | supplyRand => rfl
  case load =>
    by_cases hfits : s.pc.toNat + image.length ≤ 4096
    · exact ⟨_, .inl (Session.perform_load_of_fits hfits)⟩
    · exact ⟨_, .inr (Session.perform_load_of_overflow (Nat.lt_of_not_le hfits))⟩
  case cycle =>
    obtain ⟨t, hd, -⟩ := Session.runCycle_next h
    exact ⟨t, hd⟩

end Sys2Proof.Machine
end
